-- ==== Sys2Proof/Word.lean ====
section
/-! DEFINITION. The words DMC moves, by their names in the spec (R5, R7). Bit 0 is the least significant bit. -/

namespace Sys2Proof

/-- One 8-bit colour channel (`CH_W`, R5). -/
abbrev Byte := BitVec 8

/-- One frame-buffer entry of `PIX_W` = 24 bits, packed `{R, G, B}` (R5, R30, R43). -/
abbrev Pixel := BitVec 24

/-- One word of the glyph ROM, 25 bits, bit `r*5 + c` for row `r` and column `c` (R31). -/
abbrev GlyphWord := BitVec 25

/-- One command word of `CMD_W` = 32 bits (R5, R55). -/
abbrev CmdWord := BitVec 32

/-- A digit 0..9: an index of the glyph ROM, and the counter's range (R20, R31, R42). -/
abbrev Digit := Fin 10

/-- A physical pixel position 0..24: an index of the frame buffer (R41). -/
abbrev PixIndex := Fin 25

/-- A position 0..74 in the commit stream (R26, R99). -/
abbrev StreamIndex := Fin 75

end Sys2Proof
end

