-- ==== Sys2Proof/Syntax.lean ====
section
/-! DEFINITION. The commands of DMC's command port: one constructor per row of spec/opcode_table.json (R59). The operands
are the fields of R57 and R58 as they stand in the word, so an operand out of range (`DIG` 10..15, `IDX` 25..31) is a term
of this type; WellFormed.lean says which terms are legal. -/

namespace Sys2Proof

/-- A command (R59). The two input events of R81 and R82 have no encoding and no constructor: they are part of every
cycle (Machine/Buttons.lean). -/
inductive Instr where
  /-- NOP (R83). -/
  | nop
  /-- POLL (R84). -/
  | poll
  /-- ACK (R85). -/
  | ack
  /-- RENDER SNAP (R94). -/
  | renderSnap
  /-- RENDER #d with `DIG = cmd[3:0]` (R95). -/
  | renderImm (dig : BitVec 4)
  /-- CLEAR (R96). -/
  | clear
  /-- SETPIX with `IDX = cmd[28:24]`, `RED = cmd[23:16]`, `GRN = cmd[15:8]`, `BLU = cmd[7:0]` (R100). -/
  | setpix (idx : BitVec 5) (red grn blu : Byte)
  /-- COMMIT (R97). -/
  | commit
deriving DecidableEq, Repr

end Sys2Proof
end

