-- ==== Sys2Proof/WellFormed.lean ====
section
/-! DEFINITION. Which commands are legal: the operand ranges of R58, R59 and R60. -/

namespace Sys2Proof

/-- The "extra condition" column of R59: `DIG` <= 9 for RENDER #d and `IDX` <= 24 for SETPIX. -/
def Instr.WellFormed : Instr → Bool
  | .nop => true
  | .poll => true
  | .ack => true
  | .renderSnap => true
  | .renderImm dig => decide (dig.toNat ≤ 9)
  | .clear => true
  | .setpix idx _ _ _ => decide (idx.toNat ≤ 24)
  | .commit => true

end Sys2Proof
end

