-- ==== Sys2Proof/Decode.lean ====
section
/-! DEFINITION. The decoder of R60, total on every 32-bit word, and after it the encoder of R57, R59 and R63. -/

namespace Sys2Proof

/-- The causes of a command fault (R103). -/
inductive CmdFault where
  /-- Code 1: `OP` = 111. -/
  | illegalOpcode
  /-- Code 2: a 1 in a must-be-0 field. -/
  | reservedBits
  /-- Code 3: SETPIX with `IDX` in 25..31. -/
  | badIndex
  /-- Code 4: RENDER #d with `DIG` in 10..15. -/
  | badDigit
deriving DecidableEq, Repr

/-- The code that `ERR_CODE` records for a cause (R28, R103). -/
def CmdFault.code : CmdFault → BitVec 3
  | .illegalOpcode => 1
  | .reservedBits => 2
  | .badIndex => 3
  | .badDigit => 4

/-- What `Decode` answers: `Command | Fault(code)` (R60). -/
inductive Decoded where
  /-- The word is this command. -/
  | command (i : Instr)
  /-- The word faults for this cause. -/
  | fault (f : CmdFault)
deriving DecidableEq, Repr

/-- The opcode field `OP = cmd[31:29]` (R56). -/
def opField (w : CmdWord) : BitVec 3 := w.extractLsb' 29 3

/-- Format Z (R57): `cmd[28:0]` must be 0. -/
def decodeZ (i : Instr) (w : CmdWord) : Decoded :=
  if w.extractLsb' 0 29 ≠ 0 then .fault .reservedBits else .command i

/-- Format G (R57): `cmd[27:4]` must be 0; `M = cmd[28]` selects the source, `DIG = cmd[3:0]` the digit. The reserved
bits are checked before the digit (R106). -/
def decodeG (w : CmdWord) : Decoded :=
  if w.extractLsb' 4 24 ≠ 0 then .fault .reservedBits
  else if w.getLsbD 28 = false then
    if w.extractLsb' 0 4 ≠ 0 then .fault .reservedBits else .command .renderSnap
  else if 9 < (w.extractLsb' 0 4).toNat then .fault .badDigit
  else .command (.renderImm (w.extractLsb' 0 4))

/-- Format P (R57): `IDX = cmd[28:24]` and the three channels. -/
def decodeP (w : CmdWord) : Decoded :=
  if 24 < (w.extractLsb' 24 5).toNat then .fault .badIndex
  else .command (.setpix (w.extractLsb' 24 5) (w.extractLsb' 16 8) (w.extractLsb' 8 8) (w.extractLsb' 0 8))

/-- `Decode(w)` of R60. -/
def decode (w : CmdWord) : Decoded :=
  if opField w = 0b000#3 then decodeZ .nop w
  else if opField w = 0b001#3 then decodeZ .poll w
  else if opField w = 0b010#3 then decodeZ .ack w
  else if opField w = 0b011#3 then decodeG w
  else if opField w = 0b100#3 then decodeZ .clear w
  else if opField w = 0b101#3 then decodeP w
  else if opField w = 0b110#3 then decodeZ .commit w
  else .fault .illegalOpcode

/-- The word of a command (R57, R59, R63). On an operand out of range it is the word that carries that operand, which
faults (R61). -/
def encode : Instr → CmdWord
  | .nop => 0x00000000#32
  | .poll => 0x20000000#32
  | .ack => 0x40000000#32
  | .renderSnap => 0x60000000#32
  | .renderImm dig => 0x7000000#28 ++ dig
  | .clear => 0x80000000#32
  | .setpix idx red grn blu => 0b101#3 ++ idx ++ red ++ grn ++ blu
  | .commit => 0xC0000000#32

/-- One row of the opcode map (R59): a word `w` selects the row when `(w & mask) == match`. -/
structure OpRow where
  /-- The "match" column. -/
  pattern : CmdWord
  /-- The "mask" column. -/
  mask : CmdWord
deriving DecidableEq, Repr

/-- `(w & mask) == match` (R59). -/
def OpRow.selects (r : OpRow) (w : CmdWord) : Bool := (w &&& r.mask) == r.pattern

/-- The opcode map of R59, one row per command of spec/opcode_table.json, in its order. -/
def opcodeMap : List OpRow :=
  [⟨0x00000000#32, 0xFFFFFFFF#32⟩, ⟨0x20000000#32, 0xFFFFFFFF#32⟩, ⟨0x40000000#32, 0xFFFFFFFF#32⟩,
   ⟨0x60000000#32, 0xFFFFFFFF#32⟩, ⟨0x70000000#32, 0xFFFFFFF0#32⟩, ⟨0x80000000#32, 0xFFFFFFFF#32⟩,
   ⟨0xA0000000#32, 0xE0000000#32⟩, ⟨0xC0000000#32, 0xFFFFFFFF#32⟩]

/-- The row of the opcode map that a command belongs to (R59). -/
def Instr.row : Instr → OpRow
  | .nop => ⟨0x00000000#32, 0xFFFFFFFF#32⟩
  | .poll => ⟨0x20000000#32, 0xFFFFFFFF#32⟩
  | .ack => ⟨0x40000000#32, 0xFFFFFFFF#32⟩
  | .renderSnap => ⟨0x60000000#32, 0xFFFFFFFF#32⟩
  | .renderImm _ => ⟨0x70000000#32, 0xFFFFFFF0#32⟩
  | .clear => ⟨0x80000000#32, 0xFFFFFFFF#32⟩
  | .setpix _ _ _ _ => ⟨0xA0000000#32, 0xE0000000#32⟩
  | .commit => ⟨0xC0000000#32, 0xFFFFFFFF#32⟩

/-- The word of an instruction of the opcode table: `nbits` bits `w`, every bit above them 0. A command is one 32-bit
word (R56), so `none` where `w` needs more. -/
def tableWord (nbits w : Nat) : Option CmdWord :=
  if w % 2 ^ nbits < 2 ^ 32 then some (BitVec.ofNat 32 (w % 2 ^ nbits)) else none

/-- The command that `decode` reads from the word of an opcode-table row; `none` where it faults. -/
def decodeTableWord (nbits w : Nat) : Option Instr :=
  match tableWord nbits w with
  | none => none
  | some c =>
    match decode c with
    | .command i => some i
    | .fault _ => none

end Sys2Proof
end

