-- ==== Sys2Proof/Config.lean ====
section
/-! DEFINITION. The parameters of DMC (R5, R6), the levels of its input ports in one cycle (R16), and the model's two
open values: the glyph ROM's contents (D27) and the inputs that the environment chooses (R116). -/

namespace Sys2Proof

/-- The numeric parameters of R5. A model takes each as an argument; here every state carries them (`State.cfg`), so a
claim about all states is a claim about all parameters. `GLYPH_ROM` is the fourth parameter: see `Config.glyphRom`.
DESIGN CHOICE (log entry 4): safe. -/
structure Config where
  /-- `DEBOUNCE_MS`: the lockout, in ticks. -/
  debounceMs : Nat
  /-- `SYNC_STAGES`: the depth of each button's synchroniser. -/
  syncStages : Nat
  /-- `WORD_W`: the width of a word of the commit stream. -/
  wordW : Nat
deriving DecidableEq, Repr

/-- The values that the spec's hardware takes when no argument is overridden (R5, column "value"). -/
def Config.standard : Config := { debounceMs := 200, syncStages := 2, wordW := 32 }

/-- R6: the parameter values a model accepts; any other configuration is refused (`Refusal.badConfig`). -/
abbrev Config.Valid (c : Config) : Prop :=
  1 ≤ c.debounceMs ∧ c.debounceMs ≤ 254 ∧ 1 ≤ c.syncStages ∧ 8 ≤ c.wordW

/-- The levels of DMC's input ports at one rising edge of `clk` (R16). `btnN` holds the SAMPLED levels of `btn_n[1:0]`
that R67 takes, after the draw of R73 (bit 0 Increment, bit 1 Decrement; 1 is released): the button environment makes
the draw when it chooses the sample. DEDUCED (log entry 8): safe. -/
structure Inputs where
  /-- `rst`, synchronous reset, active high. -/
  rst : Bool
  /-- `btn_n[1:0]` as sampled, active low. -/
  btnN : BitVec 2
  /-- `ms_tick`, the time-base strobe. -/
  msTick : Bool
  /-- `cmd_valid`: the host offers a command. -/
  cmdValid : Bool
  /-- `cmd[31:0]`: the command word. -/
  cmd : CmdWord
  /-- `tx_ready`: the transport takes the word on `tx_word` this cycle. -/
  txReady : Bool
deriving DecidableEq, Repr, Inhabited

/-- The idle inputs of the spec's conventions (95_test_vectors.md, section 0): both buttons released, no tick, no
command, the transport ready, no reset. -/
def Inputs.idle : Inputs :=
  { rst := false, btnN := 3, msTick := false, cmdValid := false, cmd := 0, txReady := true }

/-- FREE VALUE. `GLYPH_ROM`, the OPEN parameter of R5, R31 and D27: no source gives the bitmaps, so nothing constrains
them (log entry 3): safe. -/
opaque Config.glyphRom : Digit → GlyphWord

/-- FREE VALUE. What the environment (buttons, time base, host, transport: R116) puts on the input ports in the cycle
with this number, when `State.inputs` lists nothing for it. Nothing constrains it (log entry 1): safe. -/
opaque Config.freeInputs : Nat → Inputs

end Sys2Proof
end

