-- ==== Sys2Proof/Machine/State.lean ====
section
/-! DEFINITION. The state of DMC as plain data: every register of R11, the frame buffer of R30 and the glyph ROM of R31,
with the parameters of R5; and beside them the two fields of the model's own that stand for the environment. -/

namespace Sys2Proof.Machine

open Sys2Proof

/-- Why DMC stops with a fault: never. DMC has no traps and no end of a run (R107, R110, R133); a command fault is
recorded in `ERR`, `ERR_CODE` and `ERR_CMD` and DMC runs on (R104). So no step and no meaning raises a machine fault, and
this type is empty. Safe: it stops nothing. -/
inductive Fault where
deriving DecidableEq, Repr

/-- Why the model gives no next state. -/
inductive Refusal where
  /-- Raised by an arm of `exec` whose instruction has no meaning yet. Safe: the model stops. No arm raises it now. -/
  | notModelled (mnemonic : String)
  /-- Raised by a cycle whose parameters are outside R6 ("A model given a value outside that range refuses the
  configuration", I13). Safe: the model stops where the spec says it does. -/
  | badConfig
  /-- Raised by a cycle without reset in a state that R39 and I5 say no run from reset reaches ("refuses such a start
  state"). Safe: the model stops where the spec says it does. -/
  | unreachableState
deriving DecidableEq, Repr

/-- The registers of one button: its synchroniser, its edge detector and its lockout timer (R13, R14, R15). -/
structure Button where
  /-- `SYNC[b][0..SYNC_STAGES-1]`, stage 0 first; 1 is released (R13). -/
  sync : List Bool
  /-- `PREV[b]`: the synchronised level of the previous cycle (R14). -/
  prev : Bool
  /-- `AGE[b]`: ticks since the last accepted edge, saturated at `AGE_MAX` (R15). -/
  age : BitVec 8
deriving DecidableEq, Repr

/-- The whole state of DMC (R11), its parameters, and the model's own `inputs` and `cycle`. -/
structure State where
  /-- The parameters `DEBOUNCE_MS`, `SYNC_STAGES`, `WORD_W` (R5). No step changes them. -/
  cfg : Config
  /-- `ROM[0..9]`, the glyph ROM (R31). No step changes it. -/
  rom : Vector GlyphWord 10
  /-- `SYNC[0]`, `PREV[0]`, `AGE[0]`: the Increment button (R75). -/
  inc : Button
  /-- `SYNC[1]`, `PREV[1]`, `AGE[1]`: the Decrement button (R75). -/
  dec : Button
  /-- `CNT`, 4 bits, typed 0..9 as R80 allows (R20). -/
  cnt : Fin 10
  /-- `D`, the dirty flag (R21). -/
  d : Bool
  /-- `SSP`, "set since poll" (R22). -/
  ssp : Bool
  /-- `SNAP_DIGIT`, 4 bits, typed 0..9 as I5 allows (R23). -/
  snapDigit : Digit
  /-- `SNAP_DIRTY` (R24). -/
  snapDirty : Bool
  /-- `BUSY`: a commit stream is in progress (R25). -/
  busy : Bool
  /-- `K`, 7 bits, typed 0..74 as I5 allows: the next word of the stream (R26). -/
  k : StreamIndex
  /-- `ERR`: a command has faulted since reset (R27). -/
  err : Bool
  /-- `ERR_CODE`: the code of the first fault (R28). -/
  errCode : BitVec 3
  /-- `ERR_CMD`: the word of the first fault (R29). -/
  errCmd : CmdWord
  /-- `fb[0..24]`, the frame buffer (R30). -/
  fb : Vector Pixel 25
  /-- THE MODEL'S OWN (log entry 1): the inputs that the environment puts on the ports in this cycle and the ones after
  it, this cycle's first. Where the list is empty the ports hold `Config.freeInputs cycle`. -/
  inputs : List Inputs
  /-- THE MODEL'S OWN (log entry 2): how many cycles have passed. No register of DMC; it is only the argument that
  makes each cycle's free inputs fresh. -/
  cycle : Nat
deriving DecidableEq, Repr

/-- DMC right after reset (R38), with the standard parameters (R5), the open glyph ROM (R31), and nothing listed of the
environment's inputs. -/
def State.reset : State where
  cfg := Config.standard
  rom := Vector.ofFn Config.glyphRom
  inc := { sync := [true, true], prev := true, age := 201 }
  dec := { sync := [true, true], prev := true, age := 201 }
  cnt := 0
  d := true
  ssp := true
  snapDigit := 0
  snapDirty := false
  busy := false
  k := 0
  err := false
  errCode := 0
  errCmd := 0
  fb := Vector.replicate 25 0
  inputs := []
  cycle := 0

/-- The levels of DMC's output ports in one cycle (R17), for a stream of `w`-bit words. -/
structure Outputs (w : Nat) where
  /-- `cmd_ready`. -/
  cmdReady : Bool
  /-- `tx_valid`. -/
  txValid : Bool
  /-- `tx_word`. -/
  txWord : BitVec w
  /-- `status[31:0]`. -/
  status : BitVec 32
  /-- `err_cmd[31:0]`. -/
  errCmd : BitVec 32
deriving DecidableEq, Repr

end Sys2Proof.Machine
end

