-- ==== Sys2Proof/Machine/Flags.lean ====
section
/-! DEFINITION. The flags of DMC (R34): the STATUS word (R32), and how the two writers of `D` and of `SSP` meet
(R70, R71). Pure functions of their arguments. -/

namespace Sys2Proof.Machine

open Sys2Proof

/-- The STATUS word (R32): `{16'b0, ERR_CODE, ERR, SNAP_DIGIT, BUSY, SNAP_DIRTY, SSP, D, CNT}`. -/
def statusWord (s : State) : BitVec 32 :=
  0#16 ++ s.errCode ++ BitVec.ofBool s.err ++ BitVec.ofNat 4 s.snapDigit.val ++ BitVec.ofBool s.busy ++
    BitVec.ofBool s.snapDirty ++ BitVec.ofBool s.ssp ++ BitVec.ofBool s.d ++ BitVec.ofNat 4 s.cnt.val

/-- ACK's share of the merge of `D` (R70, R85): 0 if `SSP` = 0, else kept. -/
def ackDirty (ssp d : Bool) : Bool := if ssp then d else false

/-- The set event's share of the merges of `D` and `SSP` (R70, R71): a set event wins over whatever the accepted command
left there. -/
def setOver (setev x : Bool) : Bool := if setev then true else x

end Sys2Proof.Machine
end

