-- ==== Sys2Proof/Machine/Operands.lean ====
section
/-! DEFINITION. What the commands operate on: a pixel's channels (R43), the stream's words (R44, R99), and the glyph
renderer's address map and image (R89 to R93). Pure functions of their arguments. -/

namespace Sys2Proof.Machine

open Sys2Proof

/-- `{R, G, B}`: red in bits 23:16, green in 15:8, blue in 7:0 (R43). -/
def packPixel (red grn blu : Byte) : Pixel := red ++ grn ++ blu

/-- The red channel of an entry (R43). -/
def redOf (p : Pixel) : Byte := p.extractLsb' 16 8

/-- The green channel of an entry (R43). -/
def grnOf (p : Pixel) : Byte := p.extractLsb' 8 8

/-- The blue channel of an entry (R43). -/
def bluOf (p : Pixel) : Byte := p.extractLsb' 0 8

/-- `{v[7:0], zext_(WORD_W-8)(0)}`: a channel byte in the most-significant byte of a `w`-bit word (R44). -/
def wireWord (w : Nat) (v : Byte) : BitVec w := v.setWidth w <<< (w - 8)

/-- The channel that word `k` of the stream carries: green, red, blue by `k % 3` (R99). -/
def channelOf (k : Nat) (p : Pixel) : Byte :=
  if k % 3 = 0 then grnOf p else if k % 3 = 1 then redOf p else bluOf p

/-- `FbRead(i)` (R9). -/
def fbEntry (fb : Vector Pixel 25) (i : PixIndex) : Pixel := fb[i]

/-- The pixel that word `k` of the stream belongs to, `k / 3` (R99). -/
def streamPixel (k : StreamIndex) : PixIndex := ⟨k.val / 3, by omega⟩

/-- `TxWord(k)` (R99): channel `k % 3` of pixel `k / 3`, in the top byte of a `w`-bit word. -/
def txWord (w : Nat) (fb : Vector Pixel 25) (k : StreamIndex) : BitVec w :=
  wireWord w (channelOf k.val (fbEntry fb (streamPixel k)))

/-- `RomRead(d)` (R9). -/
def romRead (rom : Vector GlyphWord 10) (d : Digit) : GlyphWord := rom[d]

/-- `Glyph(d, r, c) = RomRead(d)[r*5 + c]` (R89): 1 is lit. -/
def glyph (rom : Vector GlyphWord 10) (d : Digit) (r c : Fin 5) : Bool :=
  (romRead rom d).getLsbD (r.val * 5 + c.val)

/-- `Index(pr, pc)`, the zigzag transform of R91. -/
def zigzag (pr pc : Nat) : Nat := if pr % 2 = 0 then pr * 5 + pc else pr * 5 + (4 - pc)

/-- `Phys(r, c) = Index(4 - r, 4 - c)` (R90, R91). -/
def phys (r c : Nat) : Nat := zigzag (4 - r) (4 - c)

/-- The logical row of a physical index: `r = 4 - i/5` (R92). -/
def logRow (i : PixIndex) : Fin 5 := ⟨4 - i.val / 5, by omega⟩

/-- The logical column of a physical index: `c = ((i/5) % 2 == 0) ? 4 - (i % 5) : (i % 5)` (R92). -/
def logCol (i : PixIndex) : Fin 5 :=
  ⟨if i.val / 5 % 2 = 0 then 4 - i.val % 5 else i.val % 5, by split <;> omega⟩

/-- `B(i) = r*5 + c` for `(r, c) = Log(i)`: the ROM bit that pixel `i` shows (R92). -/
def romBit (i : PixIndex) : Nat := (logRow i).val * 5 + (logCol i).val

/-- `Lit(d, i) = RomRead(d)[B(i)]` (R92). -/
def lit (rom : Vector GlyphWord 10) (d : Digit) (i : PixIndex) : Bool := (romRead rom d).getLsbD (romBit i)

/-- `GLYPH_COLOR`, (R,G,B) = (0,0,255) (R5, R93). -/
def glyphColor : Pixel := packPixel 0 0 255

/-- `IMG(d)[i]` (R93). -/
def imagePixel (rom : Vector GlyphWord 10) (d : Digit) (i : PixIndex) : Pixel :=
  if lit rom d i then glyphColor else 0

/-- `IMG(d)`, all 25 entries (R93). -/
def image (rom : Vector GlyphWord 10) (d : Digit) : Vector Pixel 25 := Vector.ofFn (imagePixel rom d)

/-- The all-off frame that CLEAR writes (R96). -/
def blankFrame : Vector Pixel 25 := Vector.replicate 25 0

end Sys2Proof.Machine
end

