-- ==== Sys2Proof/Machine/Ops.lean ====
section
/-! DEFINITION. The named operations over State: the writes that rules share, the frame buffer's accesses, recording a
command fault, reset, the commit sequencer, the input and output ports, and the states that I5 refuses. -/

namespace Sys2Proof.Machine

open Sys2Proof

/-! The writes. Each names the registers that one rule writes together; Laws/State.lean says what each leaves alone. -/

/-- Write both buttons' registers (R73, R74, R76). -/
def State.setButtons (s : State) (inc dec : Button) : State := { s with inc := inc, dec := dec }

/-- Write `CNT` (R79). -/
def State.setCnt (s : State) (c : Fin 10) : State := { s with cnt := c }

/-- Write `D` and `SSP` (R70, R71). -/
def State.setHandoff (s : State) (d ssp : Bool) : State := { s with d := d, ssp := ssp }

/-- Write the snapshot (R84). -/
def State.setSnapshot (s : State) (digit : Digit) (dirty : Bool) : State :=
  { s with snapDigit := digit, snapDirty := dirty }

/-- Write the commit sequencer's registers (R97, R98). -/
def State.setStream (s : State) (busy : Bool) (k : StreamIndex) : State := { s with busy := busy, k := k }

/-- Write the fault record (R104). -/
def State.setErrRecord (s : State) (err : Bool) (code : BitVec 3) (w : CmdWord) : State :=
  { s with err := err, errCode := code, errCmd := w }

/-- Write the whole frame buffer in one cycle (R47). -/
def State.setFb (s : State) (fb : Vector Pixel 25) : State := { s with fb := fb }

/-- List the inputs of this cycle and the ones after it (log entry 1). -/
def State.setInputs (s : State) (ins : List Inputs) : State := { s with inputs := ins }

/-- Go to the next cycle: its inputs are the next ones listed (log entries 1 and 2). -/
def State.nextCycle (s : State) : State := { s with inputs := s.inputs.tail, cycle := s.cycle + 1 }

/-! The frame buffer (R30, R40). -/

/-- `FbRead(i)` (R9). -/
def State.fbRead (s : State) (i : PixIndex) : Pixel := fbEntry s.fb i

/-- `FbWrite(i, v)` (R9). -/
def State.fbWrite (s : State) (i : PixIndex) (v : Pixel) : State := s.setFb (s.fb.set i v)

/-- `RecordFault(code, w)` (R104): the first fault since reset is kept, later ones leave the record alone. This is the
whole effect of a faulting command (R105). -/
def State.recordFault (s : State) (f : CmdFault) (w : CmdWord) : State :=
  if s.err then s else s.setErrRecord true f.code w

/-! Parameters and reset. -/

/-- `AGE_MAX = DEBOUNCE_MS + 1` (R5). -/
def ageMax (c : Config) : Nat := c.debounceMs + 1

/-- A button's registers after reset (R38). -/
def Button.afterReset (c : Config) : Button :=
  { sync := List.replicate c.syncStages true, prev := true, age := BitVec.ofNat 8 (ageMax c) }

/-- The reset state that a cycle with `rst` = 1 leads to (R38, R119), whatever the state: the ROM and the parameters
stay, and the environment's inputs go on. -/
def State.afterReset (s : State) : State where
  cfg := s.cfg
  rom := s.rom
  inc := Button.afterReset s.cfg
  dec := Button.afterReset s.cfg
  cnt := 0
  d := true
  ssp := true
  snapDigit := 0
  snapDirty := false
  busy := false
  k := 0
  err := false
  errCode := 0
  errCmd := 0
  fb := blankFrame
  inputs := s.inputs
  cycle := s.cycle

/-! The commit sequencer (R98). -/

/-- One cycle of the sequencer with `BUSY` = 1: a word is taken if the transport is ready, and the last word ends the
commit (R98). -/
def State.sequencer (s : State) (txReady : Bool) : State :=
  if txReady then
    if h : s.k.val = 74 then s.setStream false 0 else s.setStream true ⟨s.k.val + 1, by omega⟩
  else s

/-! Ports. -/

/-- The levels on the input ports in this cycle: the first listed, or the environment's free choice (log entry 1). -/
def State.input (s : State) : Inputs :=
  match s.inputs with
  | i :: _ => i
  | [] => Config.freeInputs s.cycle

/-- The levels on the output ports in this cycle, functions of the start-of-cycle state alone (R17). -/
def State.outputs (s : State) : Outputs s.cfg.wordW where
  cmdReady := !s.busy
  txValid := s.busy
  txWord := if s.busy then txWord s.cfg.wordW s.fb s.k else 0
  status := statusWord s
  errCmd := s.errCmd

/-- The word that the transport takes in this cycle: `tx_valid` and `tx_ready` are 1 and there is no reset (R98, R119).
DEDUCED (log entry 11). -/
def State.taken (s : State) : Option (BitVec s.cfg.wordW) :=
  if s.busy && s.input.txReady && !s.input.rst then some (txWord s.cfg.wordW s.fb s.k) else none

/-- The word that DMC accepts in this cycle (R55): `cmd_valid` = 1, `cmd_ready` = 1 and no reset (R122). -/
def State.acceptedWord (s : State) : Option CmdWord :=
  if s.input.cmdValid && !s.busy && !s.input.rst then some s.input.cmd else none

/-- The host offers `w` in this cycle, and DMC can accept it: no reset, and no commit in progress. The other pins keep
the levels listed for this cycle, or the idle levels where none are listed (log entry 9). -/
def State.offer (s : State) (w : CmdWord) : State :=
  let now := s.inputs.headD Inputs.idle
  (s.setStream false 0).setInputs ({ now with rst := false, cmdValid := true, cmd := w } :: s.inputs.tail)

/-! The states that no run reaches. -/

/-- A button's registers that a run can hold: as many stages as the parameter says, and `AGE` <= `AGE_MAX` (R39). -/
abbrev Button.Legal (c : Config) (b : Button) : Prop :=
  b.sync.length = c.syncStages ∧ b.age.toNat ≤ ageMax c

/-- The states that I5 does not refuse. Its bounds on `CNT`, `SNAP_DIGIT` and `K` are in their types. DEDUCED (log
entries 5 and 6): safe. -/
abbrev State.Legal (s : State) : Prop :=
  Button.Legal s.cfg s.inc ∧ Button.Legal s.cfg s.dec ∧ (s.busy = false → s.k = 0) ∧ (s.ssp = true → s.d = true) ∧
    s.errCode.toNat ≤ 4

end Sys2Proof.Machine
end

