-- ==== Sys2Proof/Machine/Buttons.lean ====
section
/-! DEFINITION. The button path (R73 to R82): synchroniser, edge detector, lockout timer and counter. It acts in every
cycle without reset, whatever the command port and the sequencer do (R68). Its events INC_EDGE (R81) and DEC_EDGE (R82)
have no encoding. -/

namespace Sys2Proof.Machine

open Sys2Proof

/-- `LVL[b] = SYNC[b][SYNC_STAGES-1]`, the synchronised level (R13, R73). -/
def Button.lvl (b : Button) (c : Config) : Bool := b.sync.getD (c.syncStages - 1) true

/-- `fall[b]`: the level was 1 in the previous cycle and is 0 now (R74). -/
def Button.fall (b : Button) (c : Config) : Bool := b.prev && !b.lvl c

/-- `acc[b]`: a falling edge with the lockout run out (R77). -/
def Button.acc (b : Button) (c : Config) : Bool := b.fall c && decide (b.age.toNat = ageMax c)

/-- The lockout timer's next value (R76): restarted by an accepted edge, counting ticks, saturated at `AGE_MAX`. -/
def nextAge (c : Config) (acc : Bool) (age : BitVec 8) (tick : Bool) : BitVec 8 :=
  BitVec.ofNat 8 (min (ageMax c) ((if acc then 0 else age.toNat) + (if tick then 1 else 0)))

/-- One button's registers after a cycle with sample `sample` on its line (R73, R74, R76). -/
def Button.next (b : Button) (c : Config) (sample tick : Bool) : Button :=
  { sync := sample :: b.sync.dropLast, prev := b.lvl c, age := nextAge c (b.acc c) b.age tick }

/-- `IncStep(c, a)` (R79): saturating at 9; the flag says that the counter changed. -/
def incStep (c : Fin 10) (a : Bool) : Fin 10 × Bool :=
  if h : a = true ∧ c.val < 9 then (⟨c.val + 1, by omega⟩, true) else (c, false)

/-- `DecStep(c, a)` (R79): saturating at 0; the flag says that the counter changed. -/
def decStep (c : Fin 10) (a : Bool) : Fin 10 × Bool :=
  if a = true ∧ 0 < c.val then (⟨c.val - 1, by omega⟩, true) else (c, false)

/-- `CNT` after a cycle: Increment first, Decrement on its result (R79). -/
def countNext (c : Fin 10) (accInc accDec : Bool) : Fin 10 := (decStep (incStep c accInc).1 accDec).1

/-- `setev`: one of the two steps changed the counter (R79). -/
def setEvent (c : Fin 10) (accInc accDec : Bool) : Bool :=
  (incStep c accInc).2 || (decStep (incStep c accInc).1 accDec).2

/-- `setev` of the cycle that starts in this state (R79). -/
def State.setev (s : State) : Bool := setEvent s.cnt (s.inc.acc s.cfg) (s.dec.acc s.cfg)

/-- The button path of one cycle (R67, step 1), with the set event's share of the merges (R67, step 4). It is applied to
what the accepted command left: no command writes the registers it reads (R36), and a set event wins over what a command
wrote to `D` and `SSP` (R70, R71). DEDUCED (log entry 10). -/
def State.buttonPath (s : State) (inp : Inputs) : State :=
  ((s.setButtons (s.inc.next s.cfg (inp.btnN.getLsbD 0) inp.msTick)
      (s.dec.next s.cfg (inp.btnN.getLsbD 1) inp.msTick)).setCnt
        (countNext s.cnt (s.inc.acc s.cfg) (s.dec.acc s.cfg))).setHandoff
          (setOver s.setev s.d) (setOver s.setev s.ssp)

end Sys2Proof.Machine
end

