-- ==== Sys2Proof/Machine/Framebuffer.lean ====
section
/-! DEFINITION. The meanings of RENDER SNAP, RENDER #d, CLEAR, SETPIX and COMMIT (R94 to R97, R100). A meaning is the
effect of the ACCEPTED command on the state. -/

namespace Sys2Proof.Machine

open Sys2Proof

/-- RENDER SNAP (R94): draw the digit of the last POLL. -/
def execRenderSnap (s : State) : Host.Outcome State Fault Refusal :=
  .next (s.setFb (image s.rom s.snapDigit))

/-- RENDER #d (R95): draw the digit `DIG`, or record BAD_DIGIT. The recorded word is the command's own (log entry 12). -/
def execRenderImm (dig : BitVec 4) (s : State) : Host.Outcome State Fault Refusal :=
  if h : dig.toNat < 10 then .next (s.setFb (image s.rom ⟨dig.toNat, h⟩))
  else .next (s.recordFault .badDigit (encode (.renderImm dig)))

/-- CLEAR (R96): every entry 0. -/
def execClear (s : State) : Host.Outcome State Fault Refusal := .next (s.setFb blankFrame)

/-- SETPIX (R100): write `{RED, GRN, BLU}` to entry `IDX`, or record BAD_INDEX. The recorded word is the command's own
(log entry 12). -/
def execSetpix (idx : BitVec 5) (red grn blu : Byte) (s : State) : Host.Outcome State Fault Refusal :=
  if h : idx.toNat < 25 then .next (s.fbWrite ⟨idx.toNat, h⟩ (packPixel red grn blu))
  else .next (s.recordFault .badIndex (encode (.setpix idx red grn blu)))

/-- COMMIT (R97): start the stream at word 0. -/
def execCommit (s : State) : Host.Outcome State Fault Refusal := .next (s.setStream true 0)

end Sys2Proof.Machine
end

