-- ==== Sys2Proof/Machine/Handoff.lean ====
section
/-! DEFINITION. The meanings of NOP, POLL and ACK (R83 to R85). A meaning is the effect of the ACCEPTED command on the
state; the button path of the same cycle is added by Machine/Cycle.lean. -/

namespace Sys2Proof.Machine

open Sys2Proof

/-- NOP (R83): nothing. -/
def execNop (s : State) : Host.Outcome State Fault Refusal := .next s

/-- POLL (R84): capture `CNT` and `D`, and clear `SSP` (R71; a set event of the same cycle sets it again). -/
def execPoll (s : State) : Host.Outcome State Fault Refusal :=
  .next ((s.setSnapshot s.cnt s.d).setHandoff s.d false)

/-- ACK (R85): clear `D` if `SSP` = 0 (R70; a set event of the same cycle sets it again). -/
def execAck (s : State) : Host.Outcome State Fault Refusal :=
  .next (s.setHandoff (ackDirty s.ssp s.d) s.ssp)

end Sys2Proof.Machine
end

