-- ==== Sys2Proof/Machine/Dispatch.lean ====
section
/-! DEFINITION. From a command to its meaning, one arm per constructor of Instr. -/

namespace Sys2Proof.Machine

open Sys2Proof

/-- The effect of an accepted command (R67, step 2). -/
def exec (i : Instr) (s : State) : Host.Outcome State Fault Refusal :=
  match i with
  | .nop => Sys2Proof.Machine.execNop s
  | .poll => Sys2Proof.Machine.execPoll s
  | .ack => Sys2Proof.Machine.execAck s
  | .renderSnap => Sys2Proof.Machine.execRenderSnap s
  | .renderImm dig => Sys2Proof.Machine.execRenderImm dig s
  | .clear => Sys2Proof.Machine.execClear s
  | .setpix idx red grn blu => Sys2Proof.Machine.execSetpix idx red grn blu s
  | .commit => Sys2Proof.Machine.execCommit s

end Sys2Proof.Machine
end

