-- ==== Sys2Proof/Machine/Cycle.lean ====
section
/-! DEFINITION. One cycle of `clk` (R10, R67): reset, or the command path or the sequencer, and the button path with
them. The order below is one serialisation of the three paths, which act at once (R68, R69); Machine/Parallel.lean holds
the rule's own form. -/

namespace Sys2Proof.Machine

open Sys2Proof

/-- An accepted word: the command's effect, or the record of its fault (R60, R67, R104). -/
def acceptWord (w : CmdWord) (s : State) : Host.Outcome State Fault Refusal :=
  match decode w with
  | .command i => exec i s
  | .fault f => .next (s.recordFault f w)

/-- The command path and the sequencer. With `BUSY` = 1 no word is accepted and the sequencer acts; with `BUSY` = 0 an
offered word is accepted and the sequencer is idle (R55, R67, R69). -/
def commandPath (inp : Inputs) (s : State) : Host.Outcome State Fault Refusal :=
  if s.busy then .next (s.sequencer inp.txReady)
  else if inp.cmdValid then acceptWord inp.cmd s
  else .next s

/-- One cycle (R67). A bad configuration is refused (R6); reset takes any other state to the reset state, "whatever the
current state" (R119); without reset a state that no run reaches is refused (I5; log entry 5). -/
def cycle (s : State) : Host.Outcome State Fault Refusal :=
  if ¬ s.cfg.Valid then .refused .badConfig
  else if s.input.rst then .next s.afterReset.nextCycle
  else if ¬ s.Legal then .refused .unreachableState
  else
    match commandPath s.input s with
    | .next t => .next (t.buttonPath s.input).nextCycle
    | .fault r => .fault r
    | .refused r => .refused r

end Sys2Proof.Machine
end

