-- ==== Sys2Proof/Machine/Step.lean ====
section
/-! DEFINITION. One step of the model: one cycle of `clk` (R10). -/

namespace Sys2Proof.Machine

open Sys2Proof

/-- One step is one cycle (R10, R67). -/
def step (s : State) : Host.Outcome State Fault Refusal := Sys2Proof.Machine.cycle s

/-- The host offers the command word of an opcode-table row in this cycle, where DMC takes its next command: on `cmd`
with `cmd_valid` = 1, no reset, and the command port free (R55). A word that is no 32-bit command leaves the state as it
is. Log entry 9. -/
def State.withFetchWord (s : State) (nbits w : Nat) : State :=
  match tableWord nbits w with
  | some c => s.offer c
  | none => s

end Sys2Proof.Machine
end

