-- ==== Sys2Proof/Machine/Asm.lean ====
section
/-! DEFINITION. The assembler's language (R63), its pseudo-commands (R64) and the disassembler (R65). Text is a list of
characters. -/

namespace Sys2Proof.Machine

open Sys2Proof

/-- One line of a command program, its operands as written (R63). -/
inductive AsmLine where
  /-- `NOP` -/
  | nop
  /-- `POLL` -/
  | poll
  /-- `ACK` -/
  | ack
  /-- `RENDER SNAP` -/
  | renderSnap
  /-- `RENDER #d` -/
  | renderImm (d : Nat)
  /-- `CLEAR` -/
  | clear
  /-- `SETPIX i, r, g, b` -/
  | setpix (i r g b : Nat)
  /-- `COMMIT` -/
  | commit
  /-- `.word w` -/
  | word (w : Nat)
deriving DecidableEq, Repr

/-- The word that a line assembles to (R63). None where an assembler refuses: `RENDER #d` with d > 9, `SETPIX` with
i > 24 or a channel > 255, and a `.word` that is no 32-bit word. -/
def assemble : AsmLine → Option CmdWord
  | .nop => some 0x00000000#32
  | .poll => some 0x20000000#32
  | .ack => some 0x40000000#32
  | .renderSnap => some 0x60000000#32
  | .renderImm d => if d ≤ 9 then some (BitVec.ofNat 32 (0x70000000 + d)) else none
  | .clear => some 0x80000000#32
  | .setpix i r g b =>
    if i ≤ 24 ∧ r ≤ 255 ∧ g ≤ 255 ∧ b ≤ 255 then
      some (BitVec.ofNat 32 (0xA0000000 + i * 2 ^ 24 + r * 2 ^ 16 + g * 2 ^ 8 + b))
    else none
  | .commit => some 0xC0000000#32
  | .word w => if w < 2 ^ 32 then some (BitVec.ofNat 32 w) else none

/-- A pseudo-command (R64). -/
inductive Pseudo where
  /-- `REDRAW`: repaint from the snapshot, transmit, clear-if-same-generation. -/
  | redraw
  /-- `SHOW #d`: REPO's `render(d, buf)` followed by `commit`. -/
  | showDigit (d : Nat)
  /-- `BLANK`: transmit an all-off frame. -/
  | blank
deriving DecidableEq, Repr

/-- The fixed expansion of a pseudo-command (R64). -/
def Pseudo.expand : Pseudo → List AsmLine
  | .redraw => [.renderSnap, .commit, .ack]
  | .showDigit d => [.renderImm d, .commit]
  | .blank => [.clear, .commit]

/-- The line whose syntax a command prints as (R63, R65). -/
def lineOf : Instr → AsmLine
  | .nop => .nop
  | .poll => .poll
  | .ack => .ack
  | .renderSnap => .renderSnap
  | .renderImm dig => .renderImm dig.toNat
  | .clear => .clear
  | .setpix idx red grn blu => .setpix idx.toNat red.toNat grn.toNat blu.toNat
  | .commit => .commit

/-- Disassembly (R65): a legal word's command, or `.word w` with the fault's name as a comment. -/
def disassemble (w : CmdWord) : AsmLine × Option CmdFault :=
  match decode w with
  | .command i => (lineOf i, none)
  | .fault f => (.word w.toNat, some f)

/-! Text. -/

/-- The value of a digit character in base 16. -/
def hexDigit (c : Char) : Option Nat :=
  if '0' ≤ c ∧ c ≤ '9' then some (c.toNat - 48)
  else if 'A' ≤ c ∧ c ≤ 'F' then some (c.toNat - 55)
  else if 'a' ≤ c ∧ c ≤ 'f' then some (c.toNat - 87)
  else none

/-- Digits in a base, most significant first, read onto a value. -/
def digitsValue (base : Nat) : Nat → List Char → Option Nat
  | acc, [] => some acc
  | acc, c :: cs =>
    match hexDigit c with
    | some v => if v < base then digitsValue base (acc * base + v) cs else none
    | none => none

/-- A number, decimal or `0x` hexadecimal (R63). -/
def parseNumber : List Char → Option Nat
  | '0' :: 'x' :: c :: cs => digitsValue 16 0 (c :: cs)
  | c :: cs => digitsValue 10 0 (c :: cs)
  | [] => none

/-- A line's text before its comment: `;` starts a comment (R63). -/
def beforeComment : List Char → List Char
  | [] => []
  | c :: cs => if c = ';' then [] else c :: beforeComment cs

/-- The words of a line, split at blanks, with each comma a word of its own; `cur` holds the word being read, its last
character first. -/
def lineWords (cur : List Char) : List Char → List (List Char)
  | [] => if cur = [] then [] else [cur.reverse]
  | c :: cs =>
    if c = ' ' ∨ c = '\t' then (if cur = [] then lineWords [] cs else cur.reverse :: lineWords [] cs)
    else if c = ',' then (if cur = [] then [','] :: lineWords [] cs else cur.reverse :: [','] :: lineWords [] cs)
    else lineWords (c :: cur) cs

/-- The lines of a text; `cur` holds the line being read, its last character first. -/
def textLines (cur : List Char) : List Char → List (List Char)
  | [] => [cur.reverse]
  | c :: cs => if c = '\n' then cur.reverse :: textLines [] cs else textLines (c :: cur) cs

/-- An operand `#d`. -/
def parseDigit : List Char → Option Nat
  | '#' :: cs => parseNumber cs
  | _ => none

/-- The lines that a spelling stands for: a command's one, a pseudo-command's expansion, none for an empty line. Any
other spelling is refused (R63, R64). -/
def parseWords : List (List Char) → Option (List AsmLine)
  | [] => some []
  | [m] =>
    if m = "NOP".toList then some [.nop]
    else if m = "POLL".toList then some [.poll]
    else if m = "ACK".toList then some [.ack]
    else if m = "CLEAR".toList then some [.clear]
    else if m = "COMMIT".toList then some [.commit]
    else if m = "REDRAW".toList then some Pseudo.redraw.expand
    else if m = "BLANK".toList then some Pseudo.blank.expand
    else none
  | [m, x] =>
    if m = "RENDER".toList then
      if x = "SNAP".toList then some [.renderSnap] else (parseDigit x).map fun d => [.renderImm d]
    else if m = "SHOW".toList then (parseDigit x).map fun d => (Pseudo.showDigit d).expand
    else if m = ".word".toList then (parseNumber x).map fun w => [.word w]
    else none
  | [m, i, c1, r, c2, g, c3, b] =>
    if m = "SETPIX".toList ∧ c1 = [','] ∧ c2 = [','] ∧ c3 = [','] then
      match parseNumber i, parseNumber r, parseNumber g, parseNumber b with
      | some i, some r, some g, some b => some [.setpix i r g b]
      | _, _, _, _ => none
    else none
  | _ => none

/-- The words that a program's text assembles to, in order; none where one line is refused (R63, R64). -/
def assembleText (text : List Char) : Option (List CmdWord) :=
  ((textLines [] text).mapM fun l => parseWords (lineWords [] (beforeComment l))).bind fun ls => ls.flatten.mapM assemble

/-- The fault's name, as R103 spells it. -/
def faultText : CmdFault → List Char
  | .illegalOpcode => "ILLEGAL_OPCODE".toList
  | .reservedBits => "RESERVED_BITS".toList
  | .badIndex => "BAD_INDEX".toList
  | .badDigit => "BAD_DIGIT".toList

/-- A line's text (R63). -/
def AsmLine.text : AsmLine → List Char
  | .nop => "NOP".toList
  | .poll => "POLL".toList
  | .ack => "ACK".toList
  | .renderSnap => "RENDER SNAP".toList
  | .renderImm d => "RENDER #".toList ++ Nat.toDigits 10 d
  | .clear => "CLEAR".toList
  | .setpix i r g b =>
    "SETPIX ".toList ++ Nat.toDigits 10 i ++ ", ".toList ++ Nat.toDigits 10 r ++ ", ".toList ++ Nat.toDigits 10 g ++
      ", ".toList ++ Nat.toDigits 10 b
  | .commit => "COMMIT".toList
  | .word w => ".word 0x".toList ++ Nat.toDigits 16 w

/-- A word's disassembly as text: the command's syntax, or `.word w` with the fault's name as a comment (R65). -/
def disassembleText (w : CmdWord) : List Char :=
  match disassemble w with
  | (l, none) => l.text
  | (l, some f) => l.text ++ " ; ".toList ++ faultText f

end Sys2Proof.Machine
end

