-- ==== Sys2Proof/Machine/Parallel.lean ====
section
/-! DEFINITION. The rule's own form of one cycle (R67): every register's next value computed at once from the
start-of-cycle state `R` and the cycle's inputs (R8), with the merges of R70 and R71 as they stand. Machine/Cycle.lean
runs the paths one after another; a claim says that the two agree. Nothing of `step` calls this file. -/

namespace Sys2Proof.Machine

open Sys2Proof

/-- `op = accepted ? Decode(in.cmd) : NONE` (R67, step 2). -/
def acceptedOp (r : State) (inp : Inputs) : Option Decoded :=
  if inp.cmdValid = true ∧ r.busy = false then some (decode inp.cmd) else none

/-- The frame buffer after the command path (R67, step 2). `Decode` answers RENDER_IMM only for a digit 0..9 and SETPIX
only for an index 0..24 (R60). -/
def fbNext (r : State) : Option Decoded → Vector Pixel 25
  | some (.command .renderSnap) => image r.rom r.snapDigit
  | some (.command (.renderImm dig)) => image r.rom (Fin.ofNat 10 dig.toNat)
  | some (.command .clear) => blankFrame
  | some (.command (.setpix idx red grn blu)) => r.fb.setIfInBounds idx.toNat (packPixel red grn blu)
  | some (.command .nop) | some (.command .poll) | some (.command .ack) | some (.command .commit) => r.fb
  | some (.fault _) | none => r.fb

/-- `Fault(code)` in the command path with `R.ERR` = 0: the record is written (R104). -/
def faultNext (r : State) : Option Decoded → Option CmdFault
  | some (.fault f) => if r.err then none else some f
  | some (.command _) | none => none

/-- `BUSY` and `K` after the command path and the sequencer (R67, steps 2 and 3). -/
def streamNext (r : State) (op : Option Decoded) (txReady : Bool) : Bool × StreamIndex :=
  if op = some (.command .commit) then (true, 0)
  else if h : r.busy = true ∧ txReady = true then
    if h74 : r.k.val = 74 then (false, 0) else (r.busy, ⟨r.k.val + 1, by omega⟩)
  else (r.busy, r.k)

/-- `Step(R, in)` of R67 with `in.rst` = 0; the model's own fields go on as in `State.nextCycle`. -/
def State.parallelStep (r : State) (inp : Inputs) : State :=
  let op := acceptedOp r inp
  let poll := decide (op = some (.command .poll))
  let ack := decide (op = some (.command .ack))
  { cfg := r.cfg
    rom := r.rom
    inc := r.inc.next r.cfg (inp.btnN.getLsbD 0) inp.msTick
    dec := r.dec.next r.cfg (inp.btnN.getLsbD 1) inp.msTick
    cnt := countNext r.cnt (r.inc.acc r.cfg) (r.dec.acc r.cfg)
    d := if r.setev then true else if ack = true ∧ r.ssp = false then false else r.d
    ssp := if r.setev then true else if poll then false else r.ssp
    snapDigit := if poll then r.cnt else r.snapDigit
    snapDirty := if poll then r.d else r.snapDirty
    busy := (streamNext r op inp.txReady).1
    k := (streamNext r op inp.txReady).2
    err := (faultNext r op).isSome || r.err
    errCode := ((faultNext r op).map CmdFault.code).getD r.errCode
    errCmd := if (faultNext r op).isSome then inp.cmd else r.errCmd
    fb := fbNext r op
    inputs := r.inputs.tail
    cycle := r.cycle + 1 }

end Sys2Proof.Machine
end

