-- ==== Sys2Proof/Machine/Reference.lean ====
section
/-! DEFINITION. REPO's own debouncer, with a monotonic clock and a last-accepted timestamp for each button, run beside
DMC (R15, R78). Nothing of `step` calls this file: claims compare the two. -/

namespace Sys2Proof.Machine

open Sys2Proof

/-- One button's timestamp and the clock it is read against (R78). -/
structure Stamp where
  /-- `now(t)`: ticks after the last reset and before this cycle. -/
  now : Nat
  /-- `now(a)` for the last accepted edge's cycle `a`; none before the first one. -/
  last : Option Nat
deriving DecidableEq, Repr

/-- Just after reset: no tick and no accepted edge. -/
def Stamp.fresh : Stamp := { now := 0, last := none }

/-- REPO's rule (R78): no edge on the button has been accepted since reset, or `now(t) - now(a) > DEBOUNCE_MS`. -/
def Stamp.ready (st : Stamp) (debounceMs : Nat) : Bool :=
  match st.last with
  | none => true
  | some a => decide (debounceMs < st.now - a)

/-- What `AGE[b]` is by R78: `min(AGE_MAX, now(t) - now(a))`, or `AGE_MAX` if there is no such `a`. -/
def Stamp.age (st : Stamp) (ageMax : Nat) : Nat :=
  match st.last with
  | none => ageMax
  | some a => min ageMax (st.now - a)

/-- One cycle: an accepted edge stores the clock as read in its cycle, and a tick counts from the next cycle on (R78). -/
def Stamp.next (st : Stamp) (acc tick : Bool) : Stamp :=
  { now := st.now + (if tick then 1 else 0), last := if acc then some st.now else st.last }

/-- DMC with both buttons' timestamps kept beside it. -/
structure Tracked where
  /-- DMC. -/
  dmc : State
  /-- The Increment button's timestamp. -/
  inc : Stamp
  /-- The Decrement button's timestamp. -/
  dec : Stamp
deriving DecidableEq, Repr

/-- One cycle of both; a cycle with `rst` = 1 restarts the clock and forgets the timestamps (R78, "after the last
reset"). None where DMC gives no next state. -/
def Tracked.step (t : Tracked) : Option Tracked :=
  match Sys2Proof.Machine.step t.dmc with
  | .next s =>
    if t.dmc.input.rst then some { dmc := s, inc := Stamp.fresh, dec := Stamp.fresh }
    else some { dmc := s
                inc := t.inc.next (t.dmc.inc.acc t.dmc.cfg) t.dmc.input.msTick
                dec := t.dec.next (t.dmc.dec.acc t.dmc.cfg) t.dmc.input.msTick }
  | .fault _ => none
  | .refused _ => none

/-- `n` cycles of both. -/
def Tracked.run : Nat → Tracked → Option Tracked
  | 0, t => some t
  | n + 1, t =>
    match t.step with
    | some t' => Tracked.run n t'
    | none => none

end Sys2Proof.Machine
end

