-- ==== Sys2Proof/Machine/HostLoop.lean ====
section
/-! DEFINITION. The host's reference loop (R87) and DMC driven by it. The host is an agent outside DMC (R116), so nothing
of `step` calls this file: claims about a host that keeps the protocol take it as their premise (D14). -/

namespace Sys2Proof.Machine

open Sys2Proof

/-- Where the host stands in its loop (R87). -/
inductive HostPhase where
  /-- It offers POLL. -/
  | poll
  /-- The cycle after the POLL was accepted: it reads `status.SNAP_DIRTY`. -/
  | look
  /-- It offers COMMIT. -/
  | commit
  /-- It offers ACK. -/
  | ack
deriving DecidableEq, Repr

/-- The command that the host offers, holding it until it is accepted (R87, R125). In the cycle it looks at STATUS it
offers RENDER SNAP if `SNAP_DIRTY` = 1, and else the POLL of its next round (95_test_vectors.md, P1). -/
def HostPhase.offers (p : HostPhase) (status : BitVec 32) : Instr :=
  match p with
  | .poll => .poll
  | .look => if status.getLsbD 6 then .renderSnap else .poll
  | .commit => .commit
  | .ack => .ack

/-- Where the host stands once the offered command has been accepted (R87). -/
def HostPhase.after (p : HostPhase) (status : BitVec 32) : HostPhase :=
  match p with
  | .poll => .look
  | .look => if status.getLsbD 6 then .commit else .look
  | .commit => .ack
  | .ack => .poll

/-- DMC and its host. -/
structure Closed where
  /-- Where the host stands. -/
  host : HostPhase
  /-- DMC. -/
  dmc : State
deriving DecidableEq, Repr

/-- DMC with the host's offer on its command port in this cycle; the other ports stay the environment's. -/
def Closed.driven (c : Closed) : State :=
  c.dmc.setInputs
    ({ c.dmc.input with cmdValid := true, cmd := encode (c.host.offers (statusWord c.dmc)) } :: c.dmc.inputs.tail)

/-- Where the host stands after this cycle. It moves on when its word is accepted (R55, R125), and starts its loop anew
on a reset (R123; log entry 14). -/
def Closed.hostNext (c : Closed) : HostPhase :=
  if c.dmc.input.rst then .poll
  else if c.dmc.busy then c.host
  else c.host.after (statusWord c.dmc)

/-- One cycle of DMC and its host. None where DMC gives no next state. -/
def Closed.step (c : Closed) : Option Closed :=
  match Sys2Proof.Machine.step c.driven with
  | .next s => some { host := c.hostNext, dmc := s }
  | .fault _ => none
  | .refused _ => none

/-- `n` cycles of DMC and its host. -/
def Closed.run : Nat → Closed → Option Closed
  | 0, c => some c
  | n + 1, c =>
    match c.step with
    | some c' => Closed.run n c'
    | none => none

/-- The host at the start of its loop, beside DMC after reset (R123). -/
def Closed.afterReset (s : State) : Closed := { host := .poll, dmc := s.afterReset }

end Sys2Proof.Machine
end

