-- ==== Sys2Proof/Safety.lean ====
section
/-! DEFINITION. What claims about DMC are stated in terms of: the invariant of R39, the handoff's invariant behind R86, the
timestamps' invariant behind R78, and runs on given inputs (R133). A run of DMC never ends and no step of a reachable state
stops (R133), so "safe" here is "keeps the invariant". -/

namespace Sys2Proof.Machine

open Sys2Proof

/-- R39: the invariants of every state reachable from reset, with the parameter ranges of R6. `CNT` <= 9,
`SNAP_DIGIT` <= 9 and `K` <= 74 are in the types. -/
abbrev State.Inv (s : State) : Prop :=
  s.cfg.Valid ∧ Button.Legal s.cfg s.inc ∧ Button.Legal s.cfg s.dec ∧ (s.busy = false → s.k = 0) ∧
    (s.ssp = true → s.d = true) ∧ (s.err = false → s.errCode = 0 ∧ s.errCmd = 0) ∧
    (s.err = true → 1 ≤ s.errCode.toNat ∧ s.errCode.toNat ≤ 4)

/-- The handoff's invariant, the reason for R86: while no set event has happened since the last POLL, the snapshot is the
current counter, and a dirty flag still set was captured as set. -/
abbrev State.Fresh (s : State) : Prop :=
  s.ssp = false → s.snapDigit = s.cnt ∧ (s.d = true → s.snapDirty = true)

/-- The states that a run can be in: R39 and the handoff's invariant. -/
abbrev State.Good (s : State) : Prop := s.Inv ∧ s.Fresh

/-- `n` cycles (R133: a finite prefix of a run), stopping where a cycle stops. It is `Host.Core.run` of the machine
(Laws/Run.lean). -/
def State.run : Nat → State → Host.Outcome State Fault Refusal
  | 0, s => .next s
  | n + 1, s =>
    match step s with
    | .next t => State.run n t
    | .fault r => .fault r
    | .refused r => .refused r

/-- A run over the listed inputs, one cycle each (R133). -/
def State.runOn (s : State) (ins : List Inputs) : Host.Outcome State Fault Refusal :=
  State.run ins.length (s.setInputs ins)

/-- How many of the listed cycles hold a tick (R78, R114). -/
def tickCount (ins : List Inputs) : Nat := ins.countP (·.msTick)

/-- No listed cycle holds a reset. -/
def noReset (ins : List Inputs) : Prop := ∀ i ∈ ins, i.rst = false

/-- How many of the listed cycles have the transport ready (R98). -/
def readyCount (ins : List Inputs) : Nat := ins.countP (·.txReady)

/-- The transport takes a word in every listed cycle (R131: its fairness, in the strongest form). -/
def alwaysReady (ins : List Inputs) : Prop := ∀ i ∈ ins, i.txReady = true

/-- `b` reads the registers of button `n`: 0 is Increment, 1 is Decrement (R75). -/
def IsButton (b : State → Button) (n : Nat) : Prop := (b = State.inc ∧ n = 0) ∨ (b = State.dec ∧ n = 1)

/-- The commands that write the frame buffer (R30, R36). -/
def writesFrame : Instr → Bool
  | .renderSnap | .renderImm _ | .clear | .setpix _ _ _ _ => true
  | .nop | .poll | .ack | .commit => false

/-- One button's timer is what its timestamp says (R78), and no timestamp lies ahead of its clock. -/
abbrev Stamp.Agrees (st : Stamp) (c : Config) (b : Button) : Prop :=
  b.age.toNat = st.age (ageMax c) ∧ st.last.all (fun a => decide (a ≤ st.now)) = true

/-- DMC is in a state that a run can be in, and both its timers are what the timestamps say (R78). -/
abbrev Tracked.Agrees (x : Tracked) : Prop :=
  x.dmc.Good ∧ x.inc.Agrees x.dmc.cfg x.dmc.inc ∧ x.dec.Agrees x.dmc.cfg x.dmc.dec

/-- What a host that keeps the reference loop (R87) can rely on in every cycle: the frame buffer holds the snapshot's
glyph from its RENDER SNAP to its ACK, `D` stays set from the dirty POLL to the ACK, no command is held up outside the
ACK, and while `D` is clear the frame buffer holds the current counter's glyph. -/
abbrev Closed.Sound (c : Closed) : Prop :=
  c.dmc.Good ∧
    (c.host ≠ .ack → c.dmc.busy = false) ∧
    (c.host = .commit ∨ c.host = .ack → c.dmc.fb = image c.dmc.rom c.dmc.snapDigit ∧ c.dmc.d = true) ∧
    (c.host = .look → c.dmc.snapDirty = true → c.dmc.d = true) ∧
    (c.dmc.d = false → c.dmc.fb = image c.dmc.rom c.dmc.cnt)

end Sys2Proof.Machine
end

