-- ==== Sys2Proof/Certificates/Slice0/Obligations.lean ====
section
/-! DEFINITION. The statements for the provers: what the spec's numbered rules say of DMC. -/

open Sys2Proof Sys2Proof.Machine

/-! ## Encoding -/

/-- R57 to R60: no bit of a legal command's encoding is dropped. -/
def Obligations.DecodeOfEncodeIsTheCommand : Prop :=
  ∀ i : Instr, i.WellFormed = true → decode (encode i) = .command i

/-- R65: disassembly inverts assembly; a faulting word prints as `.word w` with the fault's name. The spelling of the text
(decimal numbers, the ` ; ` before the fault's name, the hexadecimal digits of `.word`) is the model's choice (log entry 17). -/
def Obligations.DisassemblyInvertsAssembly : Prop :=
  ∀ w : CmdWord,
    (∀ i, decode w = .command i →
      disassemble w = (lineOf i, none) ∧ disassembleText w = (lineOf i).text ∧ assemble (lineOf i) = some w) ∧
    (∀ f, decode w = .fault f →
      disassemble w = (.word w.toNat, some f) ∧
        disassembleText w = (AsmLine.word w.toNat).text ++ " ; ".toList ++ faultText f ∧
        assemble (.word w.toNat) = some w)

/-- R63, R65: the text that a word disassembles to assembles to that word, fault comment and all. The spelling of the text
is the model's choice (log entry 17). -/
def Obligations.DisassembledTextAssemblesToItsWord : Prop :=
  ∀ w : CmdWord, assembleText (disassembleText w) = some [w]

/-- R63: a command line assembles to the word of that very command, and is refused exactly when an operand is out of
range. -/
def Obligations.AssemblerEmitsTheCommandAsWritten : Prop :=
  ∀ l : AsmLine, (∀ w, l ≠ .word w) →
    (∀ w, assemble l = some w → ∃ i, decode w = .command i ∧ lineOf i = l) ∧
    (assemble l = none ↔
      (∃ d, l = .renderImm d ∧ 9 < d) ∨
        (∃ i r g b, l = .setpix i r g b ∧ (24 < i ∨ 255 < r ∨ 255 < g ∨ 255 < b)))

/-- R61, R106: when a word faults, and which of its causes it reports. -/
def Obligations.FaultCauseOfEveryWord : Prop :=
  ∀ w : CmdWord,
    (decode w = .fault .illegalOpcode ↔ opField w = 0b111#3) ∧
    (decode w = .fault .reservedBits ↔
      (opField w ∈ [0b000#3, 0b001#3, 0b010#3, 0b100#3, 0b110#3] ∧ w.extractLsb' 0 29 ≠ 0) ∨
        (opField w = 0b011#3 ∧
          (w.extractLsb' 4 24 ≠ 0 ∨ (w.getLsbD 28 = false ∧ w.extractLsb' 0 4 ≠ 0)))) ∧
    (decode w = .fault .badIndex ↔ opField w = 0b101#3 ∧ 25 ≤ (w.extractLsb' 24 5).toNat) ∧
    (decode w = .fault .badDigit ↔
      opField w = 0b011#3 ∧ w.extractLsb' 4 24 = 0 ∧ w.getLsbD 28 = true ∧ 10 ≤ (w.extractLsb' 0 4).toNat) ∧
    ((∃ i, i.WellFormed = true ∧ decode w = .command i) ∨ ∃ f, decode w = .fault f)

/-- R59: a legal word selects its own row of the opcode map and no other; a faulting word selects no row, or the row whose
extra condition it fails. -/
def Obligations.OpcodeMapSelectsOneRow : Prop :=
  (∀ w i, decode w = .command i → opcodeMap.filter (·.selects w) = [i.row]) ∧
  (∀ w f, decode w = .fault f →
    (opcodeMap.filter (·.selects w) = [] ∧ f ≠ .badIndex ∧ f ≠ .badDigit) ∨
    (opcodeMap.filter (·.selects w) = [⟨0x70000000#32, 0xFFFFFFF0#32⟩] ∧ 9 < (w.extractLsb' 0 4).toNat ∧
      f = .badDigit) ∨
    (opcodeMap.filter (·.selects w) = [⟨0xA0000000#32, 0xE0000000#32⟩] ∧ 24 < (w.extractLsb' 24 5).toNat ∧
      f = .badIndex))

/-- 95_test_vectors.md L2.6: a few words, at the edges of the formats. -/
def Obligations.WordsOfTheDecodeVectors : Prop :=
  decode 0x70000009#32 = .command (.renderImm 9) ∧ decode 0x7000000A#32 = .fault .badDigit ∧
  decode 0x7800000C#32 = .fault .reservedBits ∧ decode 0x60000005#32 = .fault .reservedBits ∧
  decode 0xA7123456#32 = .command (.setpix 7 0x12 0x34 0x56) ∧
  decode 0xB8FFFFFF#32 = .command (.setpix 24 255 255 255) ∧ decode 0xB9000000#32 = .fault .badIndex ∧
  decode 0x3FFFFFFF#32 = .fault .reservedBits ∧ decode 0xF0000005#32 = .fault .illegalOpcode

/-! ## Reset and the ports -/

/-- R38, R119: from any state whatever, a cycle with `rst` = 1 leads to the reset state. -/
def Obligations.ResetFromAnyState : Prop :=
  ∀ s : State, s.cfg.Valid → s.input.rst = true →
    ∃ t, step s = .next t ∧
      t.inc.sync = List.replicate s.cfg.syncStages true ∧ t.dec.sync = List.replicate s.cfg.syncStages true ∧
      t.inc.prev = true ∧ t.dec.prev = true ∧
      t.inc.age.toNat = s.cfg.debounceMs + 1 ∧ t.dec.age.toNat = s.cfg.debounceMs + 1 ∧
      t.cnt = 0 ∧ t.d = true ∧ t.ssp = true ∧ t.snapDigit = 0 ∧ t.snapDirty = false ∧ t.busy = false ∧ t.k = 0 ∧
      t.err = false ∧ t.errCode = 0 ∧ t.errCmd = 0 ∧ (∀ i, t.fbRead i = 0) ∧ t.rom = s.rom ∧ t.cfg = s.cfg

/-- R120: the outputs in a cycle with `rst` = 1 are those of its state, and in the next cycle those of the reset state. -/
def Obligations.OutputsAroundReset : Prop :=
  (∀ (s : State) (l : List Inputs), (s.setInputs l).outputs = s.outputs) ∧
  ∀ s t : State, s.input.rst = true → step s = .next t →
    t.outputs.cmdReady = true ∧ t.outputs.txValid = false ∧ t.outputs.txWord = 0 ∧
      t.outputs.status = 0x00000030#32 ∧ t.outputs.errCmd = 0

/-- R38, R39: the reset state meets the invariant, for the standard parameters and for every legal choice of them. The
model's own fields (log entries 1 and 2) play no part. -/
def Obligations.ResetStateIsGood : Prop :=
  State.reset.Good ∧ ∀ s : State, s.cfg.Valid → s.afterReset.Good

/-- R32: where each field stands in STATUS, and STATUS after reset. -/
def Obligations.StatusWordFields : Prop :=
  (∀ s : State,
    (statusWord s).extractLsb' 0 4 = BitVec.ofNat 4 s.cnt.val ∧ (statusWord s).getLsbD 4 = s.d ∧
    (statusWord s).getLsbD 5 = s.ssp ∧ (statusWord s).getLsbD 6 = s.snapDirty ∧
    (statusWord s).getLsbD 7 = s.busy ∧ (statusWord s).extractLsb' 8 4 = BitVec.ofNat 4 s.snapDigit.val ∧
    (statusWord s).getLsbD 12 = s.err ∧ (statusWord s).extractLsb' 13 3 = s.errCode ∧
    (statusWord s).extractLsb' 16 16 = 0) ∧
  ∀ s : State, statusWord s.afterReset = 0x00000030#32

/-- R17: the output ports. -/
def Obligations.OutputPortsShowTheState : Prop :=
  ∀ s : State,
    s.outputs.cmdReady = !s.busy ∧ s.outputs.txValid = s.busy ∧
      (s.busy = true → s.outputs.txWord = txWord s.cfg.wordW s.fb s.k) ∧
      (s.busy = false → s.outputs.txWord = 0) ∧ s.outputs.status = statusWord s ∧ s.outputs.errCmd = s.errCmd

/-! ## Invariants of every step -/

/-- R39, R86: every step keeps the invariant, whatever the inputs. -/
def Obligations.EveryStepKeepsTheInvariant : Prop :=
  ∀ s t : State, s.Good → step s = .next t → t.Good

/-- R39: every state that a run from reset reaches meets the invariants. That no such run ever stops is R133, and that the
model therefore has no machine fault is its own reading (log entry 15). -/
def Obligations.RunsFromResetKeepTheInvariants : Prop :=
  ∀ (n : Nat) (s : State), s.cfg.Valid →
    ∃ t, State.run n s.afterReset = .next t ∧
      t.cnt.val ≤ 9 ∧ t.snapDigit.val ≤ 9 ∧ t.inc.age.toNat ≤ ageMax s.cfg ∧ t.dec.age.toNat ≤ ageMax s.cfg ∧
      t.k.val ≤ 74 ∧ (t.busy = false → t.k = 0) ∧ (t.ssp = true → t.d = true) ∧
      (t.err = false → t.errCode = 0 ∧ t.errCmd = 0) ∧
      (t.err = true → 1 ≤ t.errCode.toNat ∧ t.errCode.toNat ≤ 4)

/-- R6, I5: exactly where the model refuses a cycle; it never stops otherwise. That the refusal is a stop of the model, and
that a chain of another length than `SYNC_STAGES` counts among the unreachable states, is the model's choice (log entries 4
and 5). -/
def Obligations.RefusalsAreExact : Prop :=
  ∀ s : State,
    (step s = .refused .badConfig ↔
      ¬ (1 ≤ s.cfg.debounceMs ∧ s.cfg.debounceMs ≤ 254 ∧ 8 ≤ s.cfg.wordW ∧ 1 ≤ s.cfg.syncStages)) ∧
    (step s = .refused .unreachableState ↔ s.cfg.Valid ∧ s.input.rst = false ∧ ¬ s.Legal) ∧
    ((∃ t, step s = .next t) ↔ s.cfg.Valid ∧ (s.input.rst = true ∨ s.Legal))

/-! ## The cycle -/

/-- R55, R67: a cycle that accepts a command's word runs that command, and the button path with it. `withFetchWord` has a
word accepted (the model's choice, log entry 9). That `exec` is the command path alone is the model's cut (log entry 10). -/
def Obligations.StepRunsTheAcceptedCommand : Prop :=
  (∀ (s t : State) (w : CmdWord) (i : Instr), s.cfg.Valid → s.Legal → s.acceptedWord = some w →
    decode w = .command i → exec i s = .next t → step s = .next (t.buttonPath s.input).nextCycle) ∧
  ∀ (s : State) (i : Instr), (s.withFetchWord 32 (encode i).toNat).acceptedWord = some (encode i)

/-- R67: one step is the rule's own step, every register computed at once from the start-of-cycle state. The model's own
fields `inputs` and `cycle`, which the equation compares too, go on to the next cycle on both sides (log entries 1 and 2). -/
def Obligations.CycleAgreesWithTheRule : Prop :=
  ∀ s : State, s.cfg.Valid → s.input.rst = true ∨ s.Legal →
    step s = .next (if s.input.rst then s.afterReset.nextCycle else s.parallelStep s.input)

/-- R70: the merge of `D`. -/
def Obligations.DirtyFlagMerge : Prop :=
  ∀ s t : State, step s = .next t → s.input.rst = false →
    t.d = if s.setev then true
      else if s.acceptedWord = some 0x40000000#32 ∧ s.ssp = false then false
      else s.d

/-- R71: the merge of `SSP`. -/
def Obligations.SetSincePollMerge : Prop :=
  ∀ s t : State, step s = .next t → s.input.rst = false →
    t.ssp = if s.setev then true else if s.acceptedWord = some 0x20000000#32 then false else s.ssp

/-- R104, R105: an accepted faulting word is recorded if it is the first, and has no other effect; the button path acts as
usual. The record then stays until reset. -/
def Obligations.FaultingWordOnlyRecords : Prop :=
  (∀ s t : State, step s = .next t → s.input.rst = false → s.err = true →
    t.err = true ∧ t.errCode = s.errCode ∧ t.errCmd = s.errCmd) ∧
  ∀ (s : State) (w : CmdWord) (f : CmdFault), s.cfg.Valid → s.Legal → s.acceptedWord = some w →
    decode w = .fault f →
    ∃ t, step s = .next t ∧
      t.err = true ∧ t.errCode = (if s.err then s.errCode else f.code) ∧
      t.errCmd = (if s.err then s.errCmd else w) ∧
      t.fb = s.fb ∧ t.snapDigit = s.snapDigit ∧ t.snapDirty = s.snapDirty ∧ t.busy = false ∧ t.k = s.k ∧
      t.d = (s.setev || s.d) ∧ t.ssp = (s.setev || s.ssp) ∧
      t.cnt = countNext s.cnt (s.inc.acc s.cfg) (s.dec.acc s.cfg) ∧
      t.inc = s.inc.next s.cfg (s.input.btnN.getLsbD 0) s.input.msTick ∧
      t.dec = s.dec.next s.cfg (s.input.btnN.getLsbD 1) s.input.msTick ∧ t.rom = s.rom ∧ t.cfg = s.cfg

/-- R36: each register changes only by the hand of its writers. -/
def Obligations.OnlyTheListedWritersWrite : Prop :=
  ∀ s t : State, step s = .next t → s.input.rst = false →
    t.inc = s.inc.next s.cfg (s.input.btnN.getLsbD 0) s.input.msTick ∧
    t.dec = s.dec.next s.cfg (s.input.btnN.getLsbD 1) s.input.msTick ∧
    t.cnt = countNext s.cnt (s.inc.acc s.cfg) (s.dec.acc s.cfg) ∧
    (t.d ≠ s.d → (s.setev = true ∧ t.d = true) ∨ (s.acceptedWord = some 0x40000000#32 ∧ t.d = false)) ∧
    (t.ssp ≠ s.ssp → (s.setev = true ∧ t.ssp = true) ∨ (s.acceptedWord = some 0x20000000#32 ∧ t.ssp = false)) ∧
    (t.snapDigit ≠ s.snapDigit ∨ t.snapDirty ≠ s.snapDirty → s.acceptedWord = some 0x20000000#32) ∧
    (t.fb ≠ s.fb → ∃ w i, s.acceptedWord = some w ∧ decode w = .command i ∧ writesFrame i = true) ∧
    (t.busy ≠ s.busy ∨ t.k ≠ s.k →
      s.acceptedWord = some 0xC0000000#32 ∨ (s.busy = true ∧ s.input.txReady = true)) ∧
    (t.err ≠ s.err ∨ t.errCode ≠ s.errCode ∨ t.errCmd ≠ s.errCmd →
      s.err = false ∧ ∃ w f, s.acceptedWord = some w ∧ decode w = .fault f) ∧
    t.rom = s.rom ∧ t.cfg = s.cfg

/-- R55, R122: a word offered while `BUSY` = 1, or in a cycle with `rst` = 1, has no effect whatever. -/
def Obligations.UnacceptedWordHasNoEffect : Prop :=
  ∀ (s : State) (a : Inputs) (rest : List Inputs) (valid : Bool) (w : CmdWord), s.busy = true ∨ a.rst = true →
    step (s.setInputs (a :: rest)) = step (s.setInputs ({ a with cmdValid := valid, cmd := w } :: rest))

/-- R68: the button path goes its way whatever the command port, the frame and the sequencer do: two cycles that agree on
the buttons, the counter, the samples and the tick agree on the next buttons and counter. -/
def Obligations.ButtonPathIgnoresTheOtherPaths : Prop :=
  ∀ s s' t t' : State, step s = .next t → step s' = .next t' →
    s.input.rst = false → s'.input.rst = false → s.cfg = s'.cfg → s.inc = s'.inc → s.dec = s'.dec → s.cnt = s'.cnt →
    s.input.btnN = s'.input.btnN → s.input.msTick = s'.input.msTick →
    t.inc = t'.inc ∧ t.dec = t'.dec ∧ t.cnt = t'.cnt ∧ (t.cnt ≠ s.cnt → t.d = true ∧ t'.d = true)

/-! ## The commands -/

/-- R83 to R85: NOP, POLL and ACK complete from every state, with this effect and no other. -/
def Obligations.HandoffCommandsComplete : Prop :=
  ∀ s : State,
    exec .nop s = .next s ∧
    exec .poll s = .next { s with snapDigit := s.cnt, snapDirty := s.d, ssp := false } ∧
    exec .ack s = .next { s with d := s.d && s.ssp }

/-- R93, R94, R96, R97: RENDER SNAP, CLEAR and COMMIT complete from every state, with this effect and no other. -/
def Obligations.FrameCommandsComplete : Prop :=
  ∀ s : State,
    (∃ t, exec .renderSnap s = .next t ∧ t = { s with fb := t.fb } ∧
      ∀ i, t.fbRead i = if lit s.rom s.snapDigit i then 0x0000FF#24 else 0) ∧
    (∃ t, exec .clear s = .next t ∧ t = { s with fb := t.fb } ∧ ∀ i, t.fbRead i = 0) ∧
    exec .commit s = .next { s with busy := true, k := 0 }

/-- R95: RENDER #d completes for every `DIG`: 0..9 draws that digit, 10..15 records BAD_DIGIT and writes nothing else. The
word recorded for a term the decoder never answers is the model's choice (log entry 12). -/
def Obligations.RenderDigitCompletes : Prop :=
  ∀ (dig : BitVec 4) (s : State),
    (∀ h : dig.toNat < 10, ∃ t, exec (.renderImm dig) s = .next t ∧ t = { s with fb := t.fb } ∧
      ∀ i, t.fbRead i = if lit s.rom ⟨dig.toNat, h⟩ i then 0x0000FF#24 else 0) ∧
    (10 ≤ dig.toNat → ∃ t, exec (.renderImm dig) s = .next t ∧
      t = { s with err := true, errCode := t.errCode, errCmd := t.errCmd } ∧
      (s.err = false → t.errCode = 4 ∧ t.errCmd = encode (.renderImm dig)) ∧
      (s.err = true → t.errCode = s.errCode ∧ t.errCmd = s.errCmd))

/-- R100: SETPIX completes for every `IDX`: 0..24 writes that entry and no other, 25..31 records BAD_INDEX and writes
nothing else. The word recorded for a term the decoder never answers is the model's choice (log entry 12). -/
def Obligations.SetPixelCompletes : Prop :=
  ∀ (idx : BitVec 5) (red grn blu : Byte) (s : State),
    (∀ h : idx.toNat < 25, ∃ t, exec (.setpix idx red grn blu) s = .next t ∧ t = { s with fb := t.fb } ∧
      (t.fbRead ⟨idx.toNat, h⟩).toNat = red.toNat * 2 ^ 16 + grn.toNat * 2 ^ 8 + blu.toNat ∧
      ∀ j : PixIndex, j.val ≠ idx.toNat → t.fbRead j = s.fbRead j) ∧
    (25 ≤ idx.toNat → ∃ t, exec (.setpix idx red grn blu) s = .next t ∧
      t = { s with err := true, errCode := t.errCode, errCmd := t.errCmd } ∧
      (s.err = false → t.errCode = 3 ∧ t.errCmd = encode (.setpix idx red grn blu)) ∧
      (s.err = true → t.errCode = s.errCode ∧ t.errCmd = s.errCmd))

/-- R34, R36: the frame of every command. Registers that no command names are unchanged by all; the others are unchanged by
all but the commands named. -/
def Obligations.FrameOfEveryCommand : Prop :=
  ∀ (i : Instr) (s t : State), exec i s = .next t →
    t.cfg = s.cfg ∧ t.rom = s.rom ∧ t.inc = s.inc ∧ t.dec = s.dec ∧ t.cnt = s.cnt ∧ t.inputs = s.inputs ∧
    t.cycle = s.cycle ∧
    (i ≠ .ack → t.d = s.d) ∧ (i ≠ .poll → t.ssp = s.ssp ∧ t.snapDigit = s.snapDigit ∧ t.snapDirty = s.snapDirty) ∧
    (i ≠ .commit → t.busy = s.busy ∧ t.k = s.k) ∧
    (i.WellFormed = true → t.err = s.err ∧ t.errCode = s.errCode ∧ t.errCmd = s.errCmd) ∧
    (writesFrame i = false ∨ i.WellFormed = false → ∀ j, t.fbRead j = s.fbRead j) ∧
    (∀ idx red grn blu, i = .setpix idx red grn blu → ∀ j : PixIndex, j.val ≠ idx.toNat → t.fbRead j = s.fbRead j)

/-- R84: POLL's encoding, and what a cycle that accepts it does: the snapshot holds the start-of-cycle `CNT` and `D`, and
`SSP` is left set exactly by a set event of the same cycle. -/
def Obligations.PollTakesAnUntornSnapshot : Prop :=
  decode 0x20000000#32 = .command .poll ∧
  (∀ w, opField w = 0b001#3 → w ≠ 0x20000000#32 → decode w = .fault .reservedBits) ∧
  ∀ s : State, s.cfg.Valid → s.Legal → s.acceptedWord = some 0x20000000#32 →
    ∃ t, step s = .next t ∧ t.snapDigit = s.cnt ∧ t.snapDirty = s.d ∧ t.ssp = s.setev ∧ t.d = (s.setev || s.d) ∧
      t.fb = s.fb ∧ t.busy = false ∧ t.k = s.k ∧ t.err = s.err ∧ t.errCode = s.errCode ∧ t.errCmd = s.errCmd

/-- R85: ACK's encoding, and what a cycle that accepts it does: `D` is cleared only with `SSP` = 0 and no set event. It is
never accepted while a commit is in progress. -/
def Obligations.AckClearsOnlyTheSameGeneration : Prop :=
  decode 0x40000000#32 = .command .ack ∧
  (∀ w, opField w = 0b010#3 → w ≠ 0x40000000#32 → decode w = .fault .reservedBits) ∧
  (∀ s : State, s.busy = true → s.acceptedWord ≠ some 0x40000000#32) ∧
  ∀ s : State, s.cfg.Valid → s.Legal → s.acceptedWord = some 0x40000000#32 →
    ∃ t, step s = .next t ∧ t.d = (s.setev || (s.d && s.ssp)) ∧ t.ssp = (s.setev || s.ssp) ∧
      t.snapDigit = s.snapDigit ∧ t.snapDirty = s.snapDirty ∧
      t.fb = s.fb ∧ t.busy = false ∧ t.k = s.k ∧ t.err = s.err ∧ t.errCode = s.errCode ∧ t.errCmd = s.errCmd

/-- R97: COMMIT's encoding, and what a cycle that accepts it does: from the next cycle the stream's word 0 is presented. It
is accepted only with `BUSY` = 0. -/
def Obligations.CommitPresentsWordZero : Prop :=
  decode 0xC0000000#32 = .command .commit ∧
  (∀ w, opField w = 0b110#3 → w ≠ 0xC0000000#32 → decode w = .fault .reservedBits) ∧
  (∀ s : State, s.busy = true → s.acceptedWord = none) ∧
  ∀ s : State, s.cfg.Valid → s.Legal → s.acceptedWord = some 0xC0000000#32 →
    ∃ t, step s = .next t ∧ t.busy = true ∧ t.k = 0 ∧ t.outputs.txValid = true ∧ t.outputs.cmdReady = false ∧
      t.outputs.txWord = txWord t.cfg.wordW s.fb 0 ∧ t.fb = s.fb ∧ t.d = (s.setev || s.d) ∧
      t.ssp = (s.setev || s.ssp) ∧ t.snapDigit = s.snapDigit ∧ t.snapDirty = s.snapDirty ∧
      t.inc = s.inc.next s.cfg (s.input.btnN.getLsbD 0) s.input.msTick ∧
      t.dec = s.dec.next s.cfg (s.input.btnN.getLsbD 1) s.input.msTick

/-! ## The button path -/

/-- R73, R74: the synchroniser shifts, `PREV` follows the synchronised level, and a falling edge is a level that was 1 and is
0, so never in two cycles running. -/
def Obligations.SynchroniserAndEdges : Prop :=
  ∀ (b : State → Button) (n : Nat) (s t : State), IsButton b n → step s = .next t → s.input.rst = false →
    (b t).sync[0]? = some (s.input.btnN.getLsbD n) ∧
    (∀ j, j + 1 < s.cfg.syncStages → (b t).sync[j + 1]? = (b s).sync[j]?) ∧
    (b t).sync.length = s.cfg.syncStages ∧
    (b s).sync[s.cfg.syncStages - 1]? = some ((b s).lvl s.cfg) ∧ (b t).prev = (b s).lvl s.cfg ∧
    ((b s).fall s.cfg = true ↔ (b s).prev = true ∧ (b s).lvl s.cfg = false) ∧
    ((b s).fall s.cfg = true → (b t).fall t.cfg = false)

/-- R76: the lockout timer, on numbers; and a tick reaches nothing but the two timers. -/
def Obligations.LockoutTimerUpdate : Prop :=
  (∀ (b : State → Button) (n : Nat) (s t : State), IsButton b n → step s = .next t → s.input.rst = false →
    (b t).age.toNat =
      min (s.cfg.debounceMs + 1)
        ((if (b s).acc s.cfg then 0 else (b s).age.toNat) + (if s.input.msTick then 1 else 0))) ∧
  ∀ (s t t' : State) (a : Inputs) (rest : List Inputs),
    step (s.setInputs ({ a with msTick := true } :: rest)) = .next t →
    step (s.setInputs ({ a with msTick := false } :: rest)) = .next t' →
    t' = { t with
      inc := { t.inc with age := t'.inc.age }
      dec := { t.dec with age := t'.dec.age } }

/-- R77: an edge is accepted exactly when more than `DEBOUNCE_MS` ticks have passed; the comparison is strict. -/
def Obligations.AcceptanceIsStrict : Prop :=
  ∀ (b : State → Button) (n : Nat) (s : State), IsButton b n → s.Legal →
    ((b s).acc s.cfg = true ↔ (b s).fall s.cfg = true ∧ (b s).age.toNat = s.cfg.debounceMs + 1) ∧
    ((b s).acc s.cfg = true ↔ (b s).fall s.cfg = true ∧ s.cfg.debounceMs < (b s).age.toNat) ∧
    ((b s).age.toNat = s.cfg.debounceMs → (b s).acc s.cfg = false)

/-- R79: the counter's transition, on numbers, and when it is a set event. -/
def Obligations.CounterTransition : Prop :=
  ∀ s t : State, step s = .next t → s.input.rst = false →
    ∃ c1, c1 = (if s.inc.acc s.cfg = true ∧ s.cnt.val < 9 then s.cnt.val + 1 else s.cnt.val) ∧
      t.cnt.val = (if s.dec.acc s.cfg = true ∧ 0 < c1 then c1 - 1 else c1) ∧
      (s.setev = true ↔ (s.inc.acc s.cfg = true ∧ s.cnt.val < 9) ∨ (s.dec.acc s.cfg = true ∧ 0 < c1)) ∧
      (s.setev = true → t.d = true ∧ t.ssp = true)

/-- R81, R82: the two input events, each on its own in a cycle that accepts no command. An edge accepted at a bound restarts
its timer and changes nothing else of the counter or the handoff. -/
def Obligations.AcceptedEdgeEvents : Prop :=
  ∀ s : State, s.cfg.Valid → s.Legal → s.input.rst = false → s.acceptedWord = none →
    (s.inc.acc s.cfg = true → s.dec.acc s.cfg = false →
      ∃ t, step s = .next t ∧ t.inc.age = (if s.input.msTick then 1 else 0) ∧
        (s.cnt.val < 9 → t.cnt.val = s.cnt.val + 1 ∧ t.d = true ∧ t.ssp = true) ∧
        (s.cnt.val = 9 → t.cnt = s.cnt ∧ t.d = s.d ∧ t.ssp = s.ssp)) ∧
    (s.inc.acc s.cfg = false → s.dec.acc s.cfg = true →
      ∃ t, step s = .next t ∧ t.dec.age = (if s.input.msTick then 1 else 0) ∧
        (0 < s.cnt.val → t.cnt.val = s.cnt.val - 1 ∧ t.d = true ∧ t.ssp = true) ∧
        (s.cnt.val = 0 → t.cnt = s.cnt ∧ t.d = s.d ∧ t.ssp = s.ssp))

/-- R78: in every run from reset, `AGE` is what REPO's timestamps say, and DMC accepts exactly the edges that REPO's rule
accepts, however long the run. -/
def Obligations.DebouncerMatchesTimestamps : Prop :=
  ∀ (n : Nat) (s : State), s.cfg.Valid →
    ∃ x, Tracked.run n { dmc := s.afterReset, inc := Stamp.fresh, dec := Stamp.fresh } = some x ∧
      x.dmc.inc.age.toNat = x.inc.age (ageMax s.cfg) ∧ x.dmc.dec.age.toNat = x.dec.age (ageMax s.cfg) ∧
      (x.dmc.inc.acc s.cfg = true ↔ x.dmc.inc.fall s.cfg = true ∧ x.inc.ready s.cfg.debounceMs = true) ∧
      (x.dmc.dec.acc s.cfg = true ↔ x.dmc.dec.fall s.cfg = true ∧ x.dec.ready s.cfg.debounceMs = true)

/-- R78 as a step: every cycle of DMC with the timestamps beside it, whatever its inputs, keeps `AGE` what the timestamps say;
and wherever that holds, DMC accepts exactly the edges that REPO's rule accepts. -/
def Obligations.TimestampsStayInAgreement : Prop :=
  (∀ x y : Tracked, x.Agrees → x.step = some y → y.Agrees) ∧
  ∀ x : Tracked, x.Agrees →
    (x.dmc.inc.acc x.dmc.cfg = true ↔
      x.dmc.inc.fall x.dmc.cfg = true ∧ x.inc.ready x.dmc.cfg.debounceMs = true) ∧
    (x.dmc.dec.acc x.dmc.cfg = true ↔
      x.dmc.dec.fall x.dmc.cfg = true ∧ x.dec.ready x.dmc.cfg.debounceMs = true)

/-- R78: after reset, before any tick and any accepted edge, the timestamps agree; and from where they agree the next cycle
of both exists. -/
def Obligations.TimestampsStartInAgreement : Prop :=
  (∀ s : State, s.cfg.Valid →
    ({ dmc := s.afterReset, inc := Stamp.fresh, dec := Stamp.fresh } : Tracked).Agrees) ∧
  ∀ x : Tracked, x.Agrees → ∃ y, x.step = some y

/-- R127: a line sampled high and then low gives a falling edge `SYNC_STAGES` cycles later, for every depth of the
synchroniser and whatever else happens. -/
def Obligations.ButtonLatency : Prop :=
  ∀ (b : State → Button) (n : Nat) (s : State) (i : Inputs) (rest : List Inputs), IsButton b n → s.Good →
    noReset (i :: rest) → (i :: rest).length = s.cfg.syncStages →
    (b s).sync[0]? = some true → i.btnN.getLsbD n = false →
    ∃ t, s.runOn (i :: rest) = .next t ∧ (b t).fall s.cfg = true

/-- R129: two accepted edges on one button are at least `AGE_MAX` ticks apart. -/
def Obligations.LockoutSpacing : Prop :=
  ∀ (b : State → Button) (n : Nat) (s t : State) (i : Inputs) (rest : List Inputs), IsButton b n → s.Good →
    noReset (i :: rest) → (b s).acc s.cfg = true → s.runOn (i :: rest) = .next t → (b t).acc t.cfg = true →
    s.cfg.debounceMs + 1 ≤ tickCount (i :: rest)

/-! ## The commit stream -/

/-- R98: one cycle of the sequencer. `taken` is the model's name for the word that the transport takes (log entry 11). -/
def Obligations.SequencerTakesOneWordPerReadyCycle : Prop :=
  ∀ s : State, s.cfg.Valid → s.Legal → s.input.rst = false → s.busy = true →
    ∃ t, step s = .next t ∧ t.fb = s.fb ∧
      (s.input.txReady = false → t.busy = true ∧ t.k = s.k ∧ s.taken = none) ∧
      (s.input.txReady = true → s.taken = some (txWord s.cfg.wordW s.fb s.k)) ∧
      (s.input.txReady = true → s.k.val = 74 → t.busy = false ∧ t.k = 0) ∧
      (s.input.txReady = true → s.k.val ≠ 74 → t.busy = true ∧ t.k.val = s.k.val + 1)

/-- R101, R132: from the cycle that accepts COMMIT on, over any inputs without reset, the stream has gone as far as the
transport took words, the frame buffer has not changed, and the 75th word taken ends it. -/
def Obligations.CommitStreamsTheFrameAsItStood : Prop :=
  ∀ (s : State) (i : Inputs) (ins : List Inputs), s.Good → noReset ins →
    (s.setInputs (i :: ins)).acceptedWord = some 0xC0000000#32 →
    ∃ t, s.runOn (i :: ins) = .next t ∧
      (readyCount ins ≤ 74 →
        t.busy = true ∧ t.k.val = readyCount ins ∧ t.fb = s.fb ∧ t.outputs.txWord = txWord t.cfg.wordW s.fb t.k) ∧
      (∀ l j, ins = l ++ [j] → readyCount l = 74 → j.txReady = true → t.busy = false ∧ t.k = 0 ∧ t.fb = s.fb)

/-- R99, R44: word `k` carries one channel of pixel `k / 3`, green, red, blue by `k % 3`, in the top byte of a `WORD_W`-bit
word. -/
def Obligations.StreamWordIsAChannelInTheTopByte : Prop :=
  ∀ (s : State) (h : s.k.val / 3 < 25), s.cfg.Valid → s.busy = true →
    s.outputs.txWord.toNat =
      (if s.k.val % 3 = 0 then (s.fbRead ⟨s.k.val / 3, h⟩).toNat / 2 ^ 8 % 2 ^ 8
       else if s.k.val % 3 = 1 then (s.fbRead ⟨s.k.val / 3, h⟩).toNat / 2 ^ 16 % 2 ^ 8
       else (s.fbRead ⟨s.k.val / 3, h⟩).toNat % 2 ^ 8) * 2 ^ (s.cfg.wordW - 8)

/-! ## The glyph renderer -/

/-- R89, R91 to R93: the image holds each glyph bit at the physical index of its cell, the map is a bijection onto 0..24, and
`Log` inverts it. -/
def Obligations.ImageDrawsEachCellAtItsPhysicalIndex : Prop :=
  (∀ (rom : Vector GlyphWord 10) (d : Digit) (r c : Fin 5), ∃ h : phys r.val c.val < 25,
    (image rom d)[phys r.val c.val]'h = if (romRead rom d).getLsbD (r.val * 5 + c.val) then 0x0000FF#24 else 0) ∧
  (∀ r c : Fin 5, phys r.val c.val = (4 - r.val) * 5 + (if r.val % 2 = 0 then 4 - c.val else c.val)) ∧
  (∀ r c r' c' : Fin 5, phys r.val c.val = phys r'.val c'.val → r = r' ∧ c = c') ∧
  (∀ i : PixIndex, phys (logRow i).val (logCol i).val = i.val)

/-- R102, R48: drawing depends on the digit and the ROM alone, and writing the frame twice is writing it once. -/
def Obligations.FrameWritesAreIdempotent : Prop :=
  (∀ (dig : BitVec 4) (s s' t t' : State), dig.toNat ≤ 9 → s.rom = s'.rom → exec (.renderImm dig) s = .next t →
    exec (.renderImm dig) s' = .next t' → t.fb = t'.fb) ∧
  ∀ (i : Instr) (s t : State), writesFrame i = true → exec i s = .next t → exec i t = .next t

/-! ## The handoff -/

/-- R86: in a run from reset, an ACK that clears `D` closes a POLL since which no set event happened and no POLL was
accepted; the snapshot is then the current counter. A RENDER SNAP between the two draws the current counter's glyph, and a
COMMIT after it, with no command that writes the frame between, has by then transmitted every word of that glyph. `taken`
is the model's name for the word that the transport takes (log entry 11). -/
def Obligations.NoUpdateIsLost : Prop :=
  ∀ (n : Nat) (s0 s t : State), s0.cfg.Valid → State.run n s0.afterReset = .next s → step s = .next t →
    s.acceptedWord = some 0x40000000#32 → s.d = true → t.d = false →
    t.snapDigit = t.cnt ∧
    ∃ m u, m < n ∧ State.run m s0.afterReset = .next u ∧ u.acceptedWord = some 0x20000000#32 ∧
      (∀ j v, m ≤ j → j ≤ n → State.run j s0.afterReset = .next v →
        v.setev = false ∧ v.input.rst = false ∧ (m < j → v.acceptedWord ≠ some 0x20000000#32)) ∧
      ∀ r x, m < r → r < n → State.run r s0.afterReset = .next x → x.acceptedWord = some 0x60000000#32 →
        (∀ x', State.run (r + 1) s0.afterReset = .next x' → x'.fb = image t.rom t.cnt) ∧
        ∀ c y, r < c → c < n → State.run c s0.afterReset = .next y → y.acceptedWord = some 0xC0000000#32 →
          (∀ j v w i, r < j → j < c → State.run j s0.afterReset = .next v → v.acceptedWord = some w →
            decode w = .command i → writesFrame i = false) →
          ∀ k : StreamIndex, ∃ j v, c < j ∧ j < n ∧ State.run j s0.afterReset = .next v ∧
            v.taken = some (txWord v.cfg.wordW (image t.rom t.cnt) k)

/-- R86, R87: under a host that keeps the reference loop, every cycle keeps this: while `D` is clear, the frame buffer holds
the glyph of the current counter, whatever the buttons, the time base, the transport and resets do. That the host starts
its loop anew on a reset is the model's choice (log entry 14). -/
def Obligations.ReferenceHostKeepsTheFrameCurrent : Prop :=
  ∀ c c' : Closed, c.Sound → c.step = some c' → c'.Sound

/-- R123: the host starts its loop beside DMC after reset in such a state, and no cycle of theirs stops (the host's loop as
log entry 14 takes it). -/
def Obligations.ReferenceHostStartsSound : Prop :=
  (∀ s : State, s.cfg.Valid → (Closed.afterReset s).Sound) ∧ ∀ c : Closed, c.Sound → ∃ c', c.step = some c'

/-- R132: with a transport that is always ready and no reset, a reference redraw takes 79 cycles and no fewer, and ends with
the captured digit's glyph in the frame buffer. The host's timing is the model's choice (log entry 14): it looks at STATUS
in the cycle after its POLL and offers RENDER SNAP in that same cycle. -/
def Obligations.RedrawTakes79Cycles : Prop :=
  ∀ (c : Closed) (ins rest : List Inputs), c.Sound → c.host = .poll → c.dmc.d = true →
    c.dmc.inputs = ins ++ rest → ins.length = 79 → noReset ins → alwaysReady ins →
    (∀ m x, 0 < m → m < 79 → Closed.run m c = some x → x.host ≠ .poll) ∧
    ∃ c', Closed.run 79 c = some c' ∧ c'.host = .poll ∧ c'.dmc.busy = false ∧ c'.dmc.snapDigit = c.dmc.cnt ∧
      c'.dmc.fb = image c.dmc.rom c.dmc.cnt ∧ c'.dmc.inputs = rest ∧
      (c'.dmc.d = false → c'.dmc.cnt = c.dmc.cnt)
end

