-- ==== Sys2Proof/Laws/Decode.lean ====
section
/-! SUPPORT. Small lemmas about decoding: what each opcode's words decode to, and the fields of an encoded command. -/

namespace Sys2Proof

theorem decodeZ_cases (i : Instr) (w : CmdWord) :
    (w.extractLsb' 0 29 ≠ 0 ∧ decodeZ i w = .fault .reservedBits) ∨
      (w.extractLsb' 0 29 = 0 ∧ decodeZ i w = .command i) := by
  unfold decodeZ; split <;> simp_all

theorem decodeG_cases (w : CmdWord) :
    ((w.extractLsb' 4 24 ≠ 0 ∨ w.getLsbD 28 = false ∧ w.extractLsb' 0 4 ≠ 0) ∧ decodeG w = .fault .reservedBits) ∨
      (w.extractLsb' 4 24 = 0 ∧ w.getLsbD 28 = false ∧ w.extractLsb' 0 4 = 0 ∧ decodeG w = .command .renderSnap) ∨
      (w.extractLsb' 4 24 = 0 ∧ w.getLsbD 28 = true ∧ 9 < (w.extractLsb' 0 4).toNat ∧ decodeG w = .fault .badDigit) ∨
      (w.extractLsb' 4 24 = 0 ∧ w.getLsbD 28 = true ∧ (w.extractLsb' 0 4).toNat ≤ 9 ∧
        decodeG w = .command (.renderImm (w.extractLsb' 0 4))) := by
  unfold decodeG
  split
  · left; simp_all
  · split
    · split <;> simp_all
    · split <;> simp_all

theorem decodeP_cases (w : CmdWord) :
    (24 < (w.extractLsb' 24 5).toNat ∧ decodeP w = .fault .badIndex) ∨
      ((w.extractLsb' 24 5).toNat ≤ 24 ∧
        decodeP w =
          .command (.setpix (w.extractLsb' 24 5) (w.extractLsb' 16 8) (w.extractLsb' 8 8) (w.extractLsb' 0 8))) := by
  unfold decodeP; split
  · left; exact ⟨‹_›, rfl⟩
  · right; exact ⟨by omega, rfl⟩

/-- Every word's opcode is one of the eight. -/
theorem opField_cases (w : CmdWord) :
    opField w = 0b000#3 ∨ opField w = 0b001#3 ∨ opField w = 0b010#3 ∨ opField w = 0b011#3 ∨ opField w = 0b100#3 ∨
      opField w = 0b101#3 ∨ opField w = 0b110#3 ∨ opField w = 0b111#3 := by
  generalize opField w = o; revert o; decide

theorem decode_op0 {w : CmdWord} (h : opField w = 0b000#3) : decode w = decodeZ .nop w := by simp [decode, h]
theorem decode_op1 {w : CmdWord} (h : opField w = 0b001#3) : decode w = decodeZ .poll w := by simp [decode, h]
theorem decode_op2 {w : CmdWord} (h : opField w = 0b010#3) : decode w = decodeZ .ack w := by simp [decode, h]
theorem decode_op3 {w : CmdWord} (h : opField w = 0b011#3) : decode w = decodeG w := by simp [decode, h]
theorem decode_op4 {w : CmdWord} (h : opField w = 0b100#3) : decode w = decodeZ .clear w := by simp [decode, h]
theorem decode_op5 {w : CmdWord} (h : opField w = 0b101#3) : decode w = decodeP w := by simp [decode, h]
theorem decode_op6 {w : CmdWord} (h : opField w = 0b110#3) : decode w = decodeZ .commit w := by simp [decode, h]
theorem decode_op7 {w : CmdWord} (h : opField w = 0b111#3) : decode w = .fault .illegalOpcode := by simp [decode, h]

/-! The fields of a word, and the words of the commands with operands, as numbers. -/

theorem opField_toNat (w : CmdWord) : (opField w).toNat = w.toNat / 2 ^ 29 := by
  have := w.isLt
  simp only [opField, toNat_field]; omega

theorem encode_renderImm_toNat (dig : BitVec 4) : (encode (.renderImm dig)).toNat = 0x70000000 + dig.toNat := by
  revert dig; decide

/-- `0xA000_0000 + (i << 24) + (r << 16) + (g << 8) + b` (R63). -/
theorem encode_setpix_toNat (idx : BitVec 5) (red grn blu : Byte) :
    (encode (.setpix idx red grn blu)).toNat =
      0xA0000000 + idx.toNat * 2 ^ 24 + red.toNat * 2 ^ 16 + grn.toNat * 2 ^ 8 + blu.toNat := by
  change BitVec.toNat (w := 3 + 5 + 8 + 8 + 8) (0b101#3 ++ idx ++ red ++ grn ++ blu) = _
  simp only [toNat_append_add, BitVec.toNat_ofNat]
  omega

theorem opField_setpix (idx : BitVec 5) (red grn blu : Byte) : opField (encode (.setpix idx red grn blu)) = 0b101#3 := by
  apply BitVec.eq_of_toNat_eq
  have := idx.isLt; have := red.isLt; have := grn.isLt; have := blu.isLt
  simp only [opField_toNat, encode_setpix_toNat, BitVec.toNat_ofNat]; omega

theorem opField_renderImm (dig : BitVec 4) : opField (encode (.renderImm dig)) = 0b011#3 := by
  revert dig; decide

/-! The rows of the opcode map (R59), as numbers. -/

/-- A mask of every bit from `k` up keeps exactly those bits. -/
theorem and_highMask (w m : CmdWord) (k : Nat) (h : ∀ i < 32, m.getLsbD i = decide (k ≤ i)) :
    w &&& m = w >>> k <<< k := by
  apply BitVec.eq_of_getLsbD_eq
  intro i hi
  by_cases hk : k ≤ i
  · simp [h i hi, hi, hk, Nat.not_lt.mpr hk]
  · rw [BitVec.getLsbD_and, h i hi]
    simp [hk, Nat.lt_of_not_le hk]

theorem highMask_toNat (w m : CmdWord) (k : Nat) (h : ∀ i < 32, m.getLsbD i = decide (k ≤ i)) :
    (w &&& m).toNat = w.toNat / 2 ^ k * 2 ^ k := by
  rw [and_highMask w m k h, BitVec.toNat_shiftLeft, BitVec.toNat_ushiftRight, Nat.shiftLeft_eq,
    Nat.shiftRight_eq_div_pow, Nat.mod_eq_of_lt]
  exact Nat.lt_of_le_of_lt (Nat.div_mul_le_self _ _) w.isLt

/-- A row under the mask of every bit from `k` up selects the words that agree with its pattern from bit `k` up. -/
theorem selects_highMask (p m w : CmdWord) (k : Nat) (h : ∀ i < 32, m.getLsbD i = decide (k ≤ i)) :
    OpRow.selects ⟨p, m⟩ w = decide (w.toNat / 2 ^ k * 2 ^ k = p.toNat) := by
  rw [← highMask_toNat w m k h, OpRow.selects, Bool.eq_iff_iff]
  simp [← BitVec.toNat_inj]

theorem selects_exact (p w : CmdWord) : OpRow.selects ⟨p, 0xFFFFFFFF#32⟩ w = decide (w.toNat = p.toNat) := by
  simpa using selects_highMask p 0xFFFFFFFF#32 w 0 (by decide)

theorem selects_renderImm (w : CmdWord) :
    OpRow.selects ⟨0x70000000#32, 0xFFFFFFF0#32⟩ w = decide (w.toNat / 2 ^ 4 * 2 ^ 4 = 0x70000000) :=
  selects_highMask _ _ w 4 (by decide)

theorem selects_setpix (w : CmdWord) :
    OpRow.selects ⟨0xA0000000#32, 0xE0000000#32⟩ w = decide (w.toNat / 2 ^ 29 * 2 ^ 29 = 0xA0000000) :=
  selects_highMask _ _ w 29 (by decide)

end Sys2Proof
end

