-- ==== Sys2Proof/Laws/Asm.lean ====
section
/-! SUPPORT. Numbers as text: a number's digits, decimal or hexadecimal, are no separator and read back as the number. -/

namespace Sys2Proof.Machine

open Sys2Proof

/-! The text of the lines that carry numbers. -/

theorem AsmLine.text_renderImm (d : Nat) : (AsmLine.renderImm d).text = "RENDER #".toList ++ Nat.toDigits 10 d := rfl

theorem AsmLine.text_setpix (i r g b : Nat) :
    (AsmLine.setpix i r g b).text =
      "SETPIX ".toList ++ Nat.toDigits 10 i ++ ", ".toList ++ Nat.toDigits 10 r ++ ", ".toList ++
        Nat.toDigits 10 g ++ ", ".toList ++ Nat.toDigits 10 b := rfl

theorem AsmLine.text_word (w : Nat) : (AsmLine.word w).text = ".word 0x".toList ++ Nat.toDigits 16 w := rfl

/-! Digits. -/

/-- The character of a digit reads back as the digit. -/
theorem hexDigit_digitChar {d : Nat} (h : d < 16) : hexDigit d.digitChar = some d := by
  interval_cases d <;> rfl

/-- Every character of a number in a base up to 16 is a digit character. -/
theorem mem_toDigits {base : Nat} (hb : 1 < base) (h16 : base ≤ 16) (n : Nat) :
    ∀ c ∈ Nat.toDigits base n, ∃ d, d < 16 ∧ c = d.digitChar := by
  induction n using Nat.strong_induction_on with
  | _ n ih =>
    intro c hc
    rw [Nat.toDigits_eq_if hb] at hc
    split at hc
    · next h => exact ⟨n, by omega, List.mem_singleton.mp hc⟩
    · next h =>
      rcases List.mem_append.mp hc with m | m
      · exact ih (n / base) (Nat.div_lt_self (by omega) hb) c m
      · exact ⟨n % base, lt_of_lt_of_le (Nat.mod_lt n (by omega)) h16, List.mem_singleton.mp m⟩

/-- A digit character is none of the characters that the assembler's language gives a meaning of their own. -/
theorem digitChar_plain {d : Nat} (h : d < 16) : d.digitChar ∉ [' ', '\t', ',', ';', '\n', '#', 'x'] := by
  interval_cases d <;> decide

/-- Reading one more digit. -/
theorem digitsValue_append {base d : Nat} (h16 : base ≤ 16) (hd : d < base) (cs : List Char) (acc v : Nat)
    (h : digitsValue base acc cs = some v) : digitsValue base acc (cs ++ [d.digitChar]) = some (v * base + d) := by
  induction cs generalizing acc with
  | nil =>
    cases h
    simp [digitsValue, hexDigit_digitChar (lt_of_lt_of_le hd h16), hd]
  | cons c cs ih =>
    simp only [digitsValue, List.cons_append] at h ⊢
    split at h
    · split at h
      · next hv => rw [if_pos hv]; exact ih _ h
      · cases h
    · cases h

/-- A number's digits read back as the number. -/
theorem digitsValue_toDigits {base : Nat} (hb : 1 < base) (h16 : base ≤ 16) (n : Nat) :
    digitsValue base 0 (Nat.toDigits base n) = some n := by
  induction n using Nat.strong_induction_on with
  | _ n ih =>
    rw [Nat.toDigits_eq_if hb]
    split
    · next h => simp [digitsValue, hexDigit_digitChar (show n < 16 by omega), h]
    · next h =>
      rw [digitsValue_append h16 (Nat.mod_lt n (by omega)) _ _ _ (ih _ (Nat.div_lt_self (by omega) hb))]
      congr 1
      rw [Nat.mul_comm]
      exact Nat.div_add_mod n base

theorem toDigits_ne_nil {base : Nat} (hb : 1 < base) (n : Nat) : Nat.toDigits base n ≠ [] := by
  rw [Nat.toDigits_eq_if hb]; split <;> simp

/-- A number in decimal reads back as the number. -/
theorem parseNumber_decimal (n : Nat) : parseNumber (Nat.toDigits 10 n) = some n := by
  have hv := digitsValue_toDigits (base := 10) (by omega) (by omega) n
  have hm := mem_toDigits (base := 10) (by omega) (by omega) n
  unfold parseNumber
  split
  · next c cs e =>
    obtain ⟨d, hd, hc⟩ := hm 'x' (by rw [e]; simp)
    exact absurd (hc ▸ by simp : d.digitChar ∈ [' ', '\t', ',', ';', '\n', '#', 'x']) (digitChar_plain hd)
  · next e => rw [← e]; exact hv
  · next e => exact absurd e (toDigits_ne_nil (by omega) n)

/-- A number in hexadecimal reads back as the number. -/
theorem parseNumber_hex (n : Nat) : parseNumber ('0' :: 'x' :: Nat.toDigits 16 n) = some n := by
  have hv := digitsValue_toDigits (base := 16) (by omega) (by omega) n
  cases e : Nat.toDigits 16 n with
  | nil => exact absurd e (toDigits_ne_nil (by omega) n)
  | cons c cs => rw [e] at hv; exact hv

/-! Words, comments and lines. -/

/-- A word of characters that are no separator is read whole. -/
theorem lineWords_append {l : List Char} (h : ∀ c ∈ l, c ∉ [' ', '\t', ',']) (cur rest : List Char) :
    lineWords cur (l ++ rest) = lineWords (l.reverse ++ cur) rest := by
  induction l generalizing cur with
  | nil => rfl
  | cons c l ih =>
    have hc := h c (by simp)
    simp only [List.mem_cons, List.not_mem_nil, or_false, not_or] at hc
    simp only [List.cons_append, lineWords, hc.1, hc.2.1, hc.2.2, or_self, if_false]
    rw [ih (fun x hx => h x (by simp [hx]))]
    simp

/-- A text without a `;` has no comment. -/
theorem beforeComment_append {l : List Char} (h : ';' ∉ l) (rest : List Char) :
    beforeComment (l ++ rest) = l ++ beforeComment rest := by
  induction l with
  | nil => rfl
  | cons c l ih =>
    simp only [List.mem_cons, not_or] at h
    simp only [List.cons_append, beforeComment, if_neg (Ne.symm h.1), ih h.2]

/-- A text without a line end is one line. -/
theorem textLines_single {l : List Char} (h : '\n' ∉ l) (cur : List Char) : textLines cur l = [cur.reverse ++ l] := by
  induction l generalizing cur with
  | nil => simp [textLines]
  | cons c l ih =>
    simp only [List.mem_cons, not_or] at h
    simp only [textLines, if_neg (Ne.symm h.1), ih h.2]
    simp

end Sys2Proof.Machine
end

