-- ==== Sys2Proof/Laws/State.lean ====
section
/-! SUPPORT. What each write of Machine/Ops.lean leaves in each field of State: one lemma per field per write, all by rfl,
so that no proof unfolds a record update. -/

namespace Sys2Proof.Machine

open Sys2Proof

variable (s : State)

@[simp] theorem State.setButtons_cfg (i e : Button) : (s.setButtons i e).cfg = s.cfg := rfl
@[simp] theorem State.setButtons_rom (i e : Button) : (s.setButtons i e).rom = s.rom := rfl
@[simp] theorem State.setButtons_inc (i e : Button) : (s.setButtons i e).inc = i := rfl
@[simp] theorem State.setButtons_dec (i e : Button) : (s.setButtons i e).dec = e := rfl
@[simp] theorem State.setButtons_cnt (i e : Button) : (s.setButtons i e).cnt = s.cnt := rfl
@[simp] theorem State.setButtons_d (i e : Button) : (s.setButtons i e).d = s.d := rfl
@[simp] theorem State.setButtons_ssp (i e : Button) : (s.setButtons i e).ssp = s.ssp := rfl
@[simp] theorem State.setButtons_snapDigit (i e : Button) : (s.setButtons i e).snapDigit = s.snapDigit := rfl
@[simp] theorem State.setButtons_snapDirty (i e : Button) : (s.setButtons i e).snapDirty = s.snapDirty := rfl
@[simp] theorem State.setButtons_busy (i e : Button) : (s.setButtons i e).busy = s.busy := rfl
@[simp] theorem State.setButtons_k (i e : Button) : (s.setButtons i e).k = s.k := rfl
@[simp] theorem State.setButtons_err (i e : Button) : (s.setButtons i e).err = s.err := rfl
@[simp] theorem State.setButtons_errCode (i e : Button) : (s.setButtons i e).errCode = s.errCode := rfl
@[simp] theorem State.setButtons_errCmd (i e : Button) : (s.setButtons i e).errCmd = s.errCmd := rfl
@[simp] theorem State.setButtons_fb (i e : Button) : (s.setButtons i e).fb = s.fb := rfl
@[simp] theorem State.setButtons_inputs (i e : Button) : (s.setButtons i e).inputs = s.inputs := rfl
@[simp] theorem State.setButtons_cycle (i e : Button) : (s.setButtons i e).cycle = s.cycle := rfl

@[simp] theorem State.setCnt_cfg (c : Fin 10) : (s.setCnt c).cfg = s.cfg := rfl
@[simp] theorem State.setCnt_rom (c : Fin 10) : (s.setCnt c).rom = s.rom := rfl
@[simp] theorem State.setCnt_inc (c : Fin 10) : (s.setCnt c).inc = s.inc := rfl
@[simp] theorem State.setCnt_dec (c : Fin 10) : (s.setCnt c).dec = s.dec := rfl
@[simp] theorem State.setCnt_cnt (c : Fin 10) : (s.setCnt c).cnt = c := rfl
@[simp] theorem State.setCnt_d (c : Fin 10) : (s.setCnt c).d = s.d := rfl
@[simp] theorem State.setCnt_ssp (c : Fin 10) : (s.setCnt c).ssp = s.ssp := rfl
@[simp] theorem State.setCnt_snapDigit (c : Fin 10) : (s.setCnt c).snapDigit = s.snapDigit := rfl
@[simp] theorem State.setCnt_snapDirty (c : Fin 10) : (s.setCnt c).snapDirty = s.snapDirty := rfl
@[simp] theorem State.setCnt_busy (c : Fin 10) : (s.setCnt c).busy = s.busy := rfl
@[simp] theorem State.setCnt_k (c : Fin 10) : (s.setCnt c).k = s.k := rfl
@[simp] theorem State.setCnt_err (c : Fin 10) : (s.setCnt c).err = s.err := rfl
@[simp] theorem State.setCnt_errCode (c : Fin 10) : (s.setCnt c).errCode = s.errCode := rfl
@[simp] theorem State.setCnt_errCmd (c : Fin 10) : (s.setCnt c).errCmd = s.errCmd := rfl
@[simp] theorem State.setCnt_fb (c : Fin 10) : (s.setCnt c).fb = s.fb := rfl
@[simp] theorem State.setCnt_inputs (c : Fin 10) : (s.setCnt c).inputs = s.inputs := rfl
@[simp] theorem State.setCnt_cycle (c : Fin 10) : (s.setCnt c).cycle = s.cycle := rfl

@[simp] theorem State.setHandoff_cfg (x y : Bool) : (s.setHandoff x y).cfg = s.cfg := rfl
@[simp] theorem State.setHandoff_rom (x y : Bool) : (s.setHandoff x y).rom = s.rom := rfl
@[simp] theorem State.setHandoff_inc (x y : Bool) : (s.setHandoff x y).inc = s.inc := rfl
@[simp] theorem State.setHandoff_dec (x y : Bool) : (s.setHandoff x y).dec = s.dec := rfl
@[simp] theorem State.setHandoff_cnt (x y : Bool) : (s.setHandoff x y).cnt = s.cnt := rfl
@[simp] theorem State.setHandoff_d (x y : Bool) : (s.setHandoff x y).d = x := rfl
@[simp] theorem State.setHandoff_ssp (x y : Bool) : (s.setHandoff x y).ssp = y := rfl
@[simp] theorem State.setHandoff_snapDigit (x y : Bool) : (s.setHandoff x y).snapDigit = s.snapDigit := rfl
@[simp] theorem State.setHandoff_snapDirty (x y : Bool) : (s.setHandoff x y).snapDirty = s.snapDirty := rfl
@[simp] theorem State.setHandoff_busy (x y : Bool) : (s.setHandoff x y).busy = s.busy := rfl
@[simp] theorem State.setHandoff_k (x y : Bool) : (s.setHandoff x y).k = s.k := rfl
@[simp] theorem State.setHandoff_err (x y : Bool) : (s.setHandoff x y).err = s.err := rfl
@[simp] theorem State.setHandoff_errCode (x y : Bool) : (s.setHandoff x y).errCode = s.errCode := rfl
@[simp] theorem State.setHandoff_errCmd (x y : Bool) : (s.setHandoff x y).errCmd = s.errCmd := rfl
@[simp] theorem State.setHandoff_fb (x y : Bool) : (s.setHandoff x y).fb = s.fb := rfl
@[simp] theorem State.setHandoff_inputs (x y : Bool) : (s.setHandoff x y).inputs = s.inputs := rfl
@[simp] theorem State.setHandoff_cycle (x y : Bool) : (s.setHandoff x y).cycle = s.cycle := rfl

@[simp] theorem State.setSnapshot_cfg (g : Digit) (y : Bool) : (s.setSnapshot g y).cfg = s.cfg := rfl
@[simp] theorem State.setSnapshot_rom (g : Digit) (y : Bool) : (s.setSnapshot g y).rom = s.rom := rfl
@[simp] theorem State.setSnapshot_inc (g : Digit) (y : Bool) : (s.setSnapshot g y).inc = s.inc := rfl
@[simp] theorem State.setSnapshot_dec (g : Digit) (y : Bool) : (s.setSnapshot g y).dec = s.dec := rfl
@[simp] theorem State.setSnapshot_cnt (g : Digit) (y : Bool) : (s.setSnapshot g y).cnt = s.cnt := rfl
@[simp] theorem State.setSnapshot_d (g : Digit) (y : Bool) : (s.setSnapshot g y).d = s.d := rfl
@[simp] theorem State.setSnapshot_ssp (g : Digit) (y : Bool) : (s.setSnapshot g y).ssp = s.ssp := rfl
@[simp] theorem State.setSnapshot_snapDigit (g : Digit) (y : Bool) : (s.setSnapshot g y).snapDigit = g := rfl
@[simp] theorem State.setSnapshot_snapDirty (g : Digit) (y : Bool) : (s.setSnapshot g y).snapDirty = y := rfl
@[simp] theorem State.setSnapshot_busy (g : Digit) (y : Bool) : (s.setSnapshot g y).busy = s.busy := rfl
@[simp] theorem State.setSnapshot_k (g : Digit) (y : Bool) : (s.setSnapshot g y).k = s.k := rfl
@[simp] theorem State.setSnapshot_err (g : Digit) (y : Bool) : (s.setSnapshot g y).err = s.err := rfl
@[simp] theorem State.setSnapshot_errCode (g : Digit) (y : Bool) : (s.setSnapshot g y).errCode = s.errCode := rfl
@[simp] theorem State.setSnapshot_errCmd (g : Digit) (y : Bool) : (s.setSnapshot g y).errCmd = s.errCmd := rfl
@[simp] theorem State.setSnapshot_fb (g : Digit) (y : Bool) : (s.setSnapshot g y).fb = s.fb := rfl
@[simp] theorem State.setSnapshot_inputs (g : Digit) (y : Bool) : (s.setSnapshot g y).inputs = s.inputs := rfl
@[simp] theorem State.setSnapshot_cycle (g : Digit) (y : Bool) : (s.setSnapshot g y).cycle = s.cycle := rfl

@[simp] theorem State.setStream_cfg (b : Bool) (n : StreamIndex) : (s.setStream b n).cfg = s.cfg := rfl
@[simp] theorem State.setStream_rom (b : Bool) (n : StreamIndex) : (s.setStream b n).rom = s.rom := rfl
@[simp] theorem State.setStream_inc (b : Bool) (n : StreamIndex) : (s.setStream b n).inc = s.inc := rfl
@[simp] theorem State.setStream_dec (b : Bool) (n : StreamIndex) : (s.setStream b n).dec = s.dec := rfl
@[simp] theorem State.setStream_cnt (b : Bool) (n : StreamIndex) : (s.setStream b n).cnt = s.cnt := rfl
@[simp] theorem State.setStream_d (b : Bool) (n : StreamIndex) : (s.setStream b n).d = s.d := rfl
@[simp] theorem State.setStream_ssp (b : Bool) (n : StreamIndex) : (s.setStream b n).ssp = s.ssp := rfl
@[simp] theorem State.setStream_snapDigit (b : Bool) (n : StreamIndex) : (s.setStream b n).snapDigit = s.snapDigit := rfl
@[simp] theorem State.setStream_snapDirty (b : Bool) (n : StreamIndex) : (s.setStream b n).snapDirty = s.snapDirty := rfl
@[simp] theorem State.setStream_busy (b : Bool) (n : StreamIndex) : (s.setStream b n).busy = b := rfl
@[simp] theorem State.setStream_k (b : Bool) (n : StreamIndex) : (s.setStream b n).k = n := rfl
@[simp] theorem State.setStream_err (b : Bool) (n : StreamIndex) : (s.setStream b n).err = s.err := rfl
@[simp] theorem State.setStream_errCode (b : Bool) (n : StreamIndex) : (s.setStream b n).errCode = s.errCode := rfl
@[simp] theorem State.setStream_errCmd (b : Bool) (n : StreamIndex) : (s.setStream b n).errCmd = s.errCmd := rfl
@[simp] theorem State.setStream_fb (b : Bool) (n : StreamIndex) : (s.setStream b n).fb = s.fb := rfl
@[simp] theorem State.setStream_inputs (b : Bool) (n : StreamIndex) : (s.setStream b n).inputs = s.inputs := rfl
@[simp] theorem State.setStream_cycle (b : Bool) (n : StreamIndex) : (s.setStream b n).cycle = s.cycle := rfl

@[simp] theorem State.setErrRecord_cfg (e : Bool) (c : BitVec 3) (w : CmdWord) : (s.setErrRecord e c w).cfg = s.cfg := rfl
@[simp] theorem State.setErrRecord_rom (e : Bool) (c : BitVec 3) (w : CmdWord) : (s.setErrRecord e c w).rom = s.rom := rfl
@[simp] theorem State.setErrRecord_inc (e : Bool) (c : BitVec 3) (w : CmdWord) : (s.setErrRecord e c w).inc = s.inc := rfl
@[simp] theorem State.setErrRecord_dec (e : Bool) (c : BitVec 3) (w : CmdWord) : (s.setErrRecord e c w).dec = s.dec := rfl
@[simp] theorem State.setErrRecord_cnt (e : Bool) (c : BitVec 3) (w : CmdWord) : (s.setErrRecord e c w).cnt = s.cnt := rfl
@[simp] theorem State.setErrRecord_d (e : Bool) (c : BitVec 3) (w : CmdWord) : (s.setErrRecord e c w).d = s.d := rfl
@[simp] theorem State.setErrRecord_ssp (e : Bool) (c : BitVec 3) (w : CmdWord) : (s.setErrRecord e c w).ssp = s.ssp := rfl
@[simp] theorem State.setErrRecord_snapDigit (e : Bool) (c : BitVec 3) (w : CmdWord) : (s.setErrRecord e c w).snapDigit = s.snapDigit := rfl
@[simp] theorem State.setErrRecord_snapDirty (e : Bool) (c : BitVec 3) (w : CmdWord) : (s.setErrRecord e c w).snapDirty = s.snapDirty := rfl
@[simp] theorem State.setErrRecord_busy (e : Bool) (c : BitVec 3) (w : CmdWord) : (s.setErrRecord e c w).busy = s.busy := rfl
@[simp] theorem State.setErrRecord_k (e : Bool) (c : BitVec 3) (w : CmdWord) : (s.setErrRecord e c w).k = s.k := rfl
@[simp] theorem State.setErrRecord_err (e : Bool) (c : BitVec 3) (w : CmdWord) : (s.setErrRecord e c w).err = e := rfl
@[simp] theorem State.setErrRecord_errCode (e : Bool) (c : BitVec 3) (w : CmdWord) : (s.setErrRecord e c w).errCode = c := rfl
@[simp] theorem State.setErrRecord_errCmd (e : Bool) (c : BitVec 3) (w : CmdWord) : (s.setErrRecord e c w).errCmd = w := rfl
@[simp] theorem State.setErrRecord_fb (e : Bool) (c : BitVec 3) (w : CmdWord) : (s.setErrRecord e c w).fb = s.fb := rfl
@[simp] theorem State.setErrRecord_inputs (e : Bool) (c : BitVec 3) (w : CmdWord) : (s.setErrRecord e c w).inputs = s.inputs := rfl
@[simp] theorem State.setErrRecord_cycle (e : Bool) (c : BitVec 3) (w : CmdWord) : (s.setErrRecord e c w).cycle = s.cycle := rfl

@[simp] theorem State.setFb_cfg (f : Vector Pixel 25) : (s.setFb f).cfg = s.cfg := rfl
@[simp] theorem State.setFb_rom (f : Vector Pixel 25) : (s.setFb f).rom = s.rom := rfl
@[simp] theorem State.setFb_inc (f : Vector Pixel 25) : (s.setFb f).inc = s.inc := rfl
@[simp] theorem State.setFb_dec (f : Vector Pixel 25) : (s.setFb f).dec = s.dec := rfl
@[simp] theorem State.setFb_cnt (f : Vector Pixel 25) : (s.setFb f).cnt = s.cnt := rfl
@[simp] theorem State.setFb_d (f : Vector Pixel 25) : (s.setFb f).d = s.d := rfl
@[simp] theorem State.setFb_ssp (f : Vector Pixel 25) : (s.setFb f).ssp = s.ssp := rfl
@[simp] theorem State.setFb_snapDigit (f : Vector Pixel 25) : (s.setFb f).snapDigit = s.snapDigit := rfl
@[simp] theorem State.setFb_snapDirty (f : Vector Pixel 25) : (s.setFb f).snapDirty = s.snapDirty := rfl
@[simp] theorem State.setFb_busy (f : Vector Pixel 25) : (s.setFb f).busy = s.busy := rfl
@[simp] theorem State.setFb_k (f : Vector Pixel 25) : (s.setFb f).k = s.k := rfl
@[simp] theorem State.setFb_err (f : Vector Pixel 25) : (s.setFb f).err = s.err := rfl
@[simp] theorem State.setFb_errCode (f : Vector Pixel 25) : (s.setFb f).errCode = s.errCode := rfl
@[simp] theorem State.setFb_errCmd (f : Vector Pixel 25) : (s.setFb f).errCmd = s.errCmd := rfl
@[simp] theorem State.setFb_fb (f : Vector Pixel 25) : (s.setFb f).fb = f := rfl
@[simp] theorem State.setFb_inputs (f : Vector Pixel 25) : (s.setFb f).inputs = s.inputs := rfl
@[simp] theorem State.setFb_cycle (f : Vector Pixel 25) : (s.setFb f).cycle = s.cycle := rfl

@[simp] theorem State.setInputs_cfg (l : List Inputs) : (s.setInputs l).cfg = s.cfg := rfl
@[simp] theorem State.setInputs_rom (l : List Inputs) : (s.setInputs l).rom = s.rom := rfl
@[simp] theorem State.setInputs_inc (l : List Inputs) : (s.setInputs l).inc = s.inc := rfl
@[simp] theorem State.setInputs_dec (l : List Inputs) : (s.setInputs l).dec = s.dec := rfl
@[simp] theorem State.setInputs_cnt (l : List Inputs) : (s.setInputs l).cnt = s.cnt := rfl
@[simp] theorem State.setInputs_d (l : List Inputs) : (s.setInputs l).d = s.d := rfl
@[simp] theorem State.setInputs_ssp (l : List Inputs) : (s.setInputs l).ssp = s.ssp := rfl
@[simp] theorem State.setInputs_snapDigit (l : List Inputs) : (s.setInputs l).snapDigit = s.snapDigit := rfl
@[simp] theorem State.setInputs_snapDirty (l : List Inputs) : (s.setInputs l).snapDirty = s.snapDirty := rfl
@[simp] theorem State.setInputs_busy (l : List Inputs) : (s.setInputs l).busy = s.busy := rfl
@[simp] theorem State.setInputs_k (l : List Inputs) : (s.setInputs l).k = s.k := rfl
@[simp] theorem State.setInputs_err (l : List Inputs) : (s.setInputs l).err = s.err := rfl
@[simp] theorem State.setInputs_errCode (l : List Inputs) : (s.setInputs l).errCode = s.errCode := rfl
@[simp] theorem State.setInputs_errCmd (l : List Inputs) : (s.setInputs l).errCmd = s.errCmd := rfl
@[simp] theorem State.setInputs_fb (l : List Inputs) : (s.setInputs l).fb = s.fb := rfl
@[simp] theorem State.setInputs_inputs (l : List Inputs) : (s.setInputs l).inputs = l := rfl
@[simp] theorem State.setInputs_cycle (l : List Inputs) : (s.setInputs l).cycle = s.cycle := rfl

@[simp] theorem State.nextCycle_cfg : s.nextCycle.cfg = s.cfg := rfl
@[simp] theorem State.nextCycle_rom : s.nextCycle.rom = s.rom := rfl
@[simp] theorem State.nextCycle_inc : s.nextCycle.inc = s.inc := rfl
@[simp] theorem State.nextCycle_dec : s.nextCycle.dec = s.dec := rfl
@[simp] theorem State.nextCycle_cnt : s.nextCycle.cnt = s.cnt := rfl
@[simp] theorem State.nextCycle_d : s.nextCycle.d = s.d := rfl
@[simp] theorem State.nextCycle_ssp : s.nextCycle.ssp = s.ssp := rfl
@[simp] theorem State.nextCycle_snapDigit : s.nextCycle.snapDigit = s.snapDigit := rfl
@[simp] theorem State.nextCycle_snapDirty : s.nextCycle.snapDirty = s.snapDirty := rfl
@[simp] theorem State.nextCycle_busy : s.nextCycle.busy = s.busy := rfl
@[simp] theorem State.nextCycle_k : s.nextCycle.k = s.k := rfl
@[simp] theorem State.nextCycle_err : s.nextCycle.err = s.err := rfl
@[simp] theorem State.nextCycle_errCode : s.nextCycle.errCode = s.errCode := rfl
@[simp] theorem State.nextCycle_errCmd : s.nextCycle.errCmd = s.errCmd := rfl
@[simp] theorem State.nextCycle_fb : s.nextCycle.fb = s.fb := rfl
@[simp] theorem State.nextCycle_inputs : s.nextCycle.inputs = s.inputs.tail := rfl
@[simp] theorem State.nextCycle_cycle : s.nextCycle.cycle = s.cycle + 1 := rfl

@[simp] theorem State.afterReset_cfg : s.afterReset.cfg = s.cfg := rfl
@[simp] theorem State.afterReset_rom : s.afterReset.rom = s.rom := rfl
@[simp] theorem State.afterReset_inc : s.afterReset.inc = Button.afterReset s.cfg := rfl
@[simp] theorem State.afterReset_dec : s.afterReset.dec = Button.afterReset s.cfg := rfl
@[simp] theorem State.afterReset_cnt : s.afterReset.cnt = 0 := rfl
@[simp] theorem State.afterReset_d : s.afterReset.d = true := rfl
@[simp] theorem State.afterReset_ssp : s.afterReset.ssp = true := rfl
@[simp] theorem State.afterReset_snapDigit : s.afterReset.snapDigit = 0 := rfl
@[simp] theorem State.afterReset_snapDirty : s.afterReset.snapDirty = false := rfl
@[simp] theorem State.afterReset_busy : s.afterReset.busy = false := rfl
@[simp] theorem State.afterReset_k : s.afterReset.k = 0 := rfl
@[simp] theorem State.afterReset_err : s.afterReset.err = false := rfl
@[simp] theorem State.afterReset_errCode : s.afterReset.errCode = 0 := rfl
@[simp] theorem State.afterReset_errCmd : s.afterReset.errCmd = 0 := rfl
@[simp] theorem State.afterReset_fb : s.afterReset.fb = blankFrame := rfl
@[simp] theorem State.afterReset_inputs : s.afterReset.inputs = s.inputs := rfl
@[simp] theorem State.afterReset_cycle : s.afterReset.cycle = s.cycle := rfl

end Sys2Proof.Machine
end

