-- ==== Sys2Proof/Laws/Ops.lean ====
section
/-! SUPPORT. One lemma for each shared operation that says what it does: the frame buffer's accesses, recording a fault,
the sequencer, the ports, and the parts of the button path. -/

namespace Sys2Proof.Machine

open Sys2Proof

/-! The frame buffer. -/

theorem State.fbRead_setFb (s : State) (f : Vector Pixel 25) (i : PixIndex) : (s.setFb f).fbRead i = f[i] := rfl

theorem State.fbRead_fbWrite_same (s : State) (i : PixIndex) (v : Pixel) : (s.fbWrite i v).fbRead i = v := by
  simp [State.fbRead, State.fbWrite, fbEntry]

theorem State.fbRead_fbWrite_other (s : State) {i j : PixIndex} (v : Pixel) (h : i ≠ j) :
    (s.fbWrite i v).fbRead j = s.fbRead j := by
  have : i.val ≠ j.val := fun e => h (Fin.ext e)
  simp [State.fbRead, State.fbWrite, fbEntry, this]

@[simp] theorem image_get (rom : Vector GlyphWord 10) (d : Digit) (i : PixIndex) :
    (image rom d)[i] = imagePixel rom d i := by
  simp [image]

@[simp] theorem blankFrame_get (i : PixIndex) : blankFrame[i] = 0 := by
  simp [blankFrame]

/-! The fault record. -/

theorem State.recordFault_first (s : State) (f : CmdFault) (w : CmdWord) (h : s.err = false) :
    s.recordFault f w = s.setErrRecord true f.code w := by
  simp [State.recordFault, h]

theorem State.recordFault_later (s : State) (f : CmdFault) (w : CmdWord) (h : s.err = true) :
    s.recordFault f w = s := by
  simp [State.recordFault, h]

/-- A recorded fault touches the record alone. -/
theorem State.recordFault_eq (s : State) (f : CmdFault) (w : CmdWord) :
    s.recordFault f w =
      s.setErrRecord true (if s.err then s.errCode else f.code) (if s.err then s.errCmd else w) := by
  cases h : s.err <;> cases s <;> simp_all [State.recordFault, State.setErrRecord]

theorem faultCode_range (f : CmdFault) : 1 ≤ f.code.toNat ∧ f.code.toNat ≤ 4 := by
  cases f <;> decide

/-! The sequencer. -/

theorem State.sequencer_stalled (s : State) : s.sequencer false = s := rfl

theorem State.sequencer_last (s : State) (h : s.k.val = 74) : s.sequencer true = s.setStream false 0 := by
  simp [State.sequencer, h]

theorem State.sequencer_more (s : State) (h : s.k.val < 74) :
    s.sequencer true = s.setStream true ⟨s.k.val + 1, by omega⟩ := by
  simp [State.sequencer, Nat.ne_of_lt h]

/-- The sequencer writes `BUSY` and `K` alone. -/
theorem State.sequencer_eq (s : State) (r : Bool) :
    s.sequencer r = s.setStream (s.sequencer r).busy (s.sequencer r).k := by
  unfold State.sequencer
  split
  · split <;> rfl
  · rfl

/-! The ports. -/

@[simp] theorem State.input_cons (s : State) (i : Inputs) (l : List Inputs) : (s.setInputs (i :: l)).input = i := rfl

@[simp] theorem State.input_listed (s : State) {i : Inputs} {l : List Inputs} (h : s.inputs = i :: l) : s.input = i := by
  simp [State.input, h]

theorem State.acceptedWord_some {s : State} {w : CmdWord} :
    s.acceptedWord = some w ↔
      s.input.cmdValid = true ∧ s.busy = false ∧ s.input.rst = false ∧ s.input.cmd = w := by
  unfold State.acceptedWord
  cases s.input.cmdValid <;> cases s.busy <;> cases s.input.rst <;> simp

/-! STATUS. -/

/-- STATUS as a number, field by field (R32). -/
theorem statusWord_toNat (s : State) :
    (statusWord s).toNat =
      s.errCode.toNat * 2 ^ 13 + s.err.toNat * 2 ^ 12 + s.snapDigit.val * 2 ^ 8 + s.busy.toNat * 2 ^ 7 +
        s.snapDirty.toNat * 2 ^ 6 + s.ssp.toNat * 2 ^ 5 + s.d.toNat * 2 ^ 4 + s.cnt.val := by
  change BitVec.toNat (w := 16 + 3 + 1 + 4 + 1 + 1 + 1 + 1 + 4) (0#16 ++ s.errCode ++ BitVec.ofBool s.err ++
    BitVec.ofNat 4 s.snapDigit.val ++ BitVec.ofBool s.busy ++ BitVec.ofBool s.snapDirty ++ BitVec.ofBool s.ssp ++
    BitVec.ofBool s.d ++ BitVec.ofNat 4 s.cnt.val) = _
  have := s.cnt.isLt; have := s.snapDigit.isLt
  simp only [toNat_append_add, BitVec.toNat_ofNat, toNat_flag]
  omega

/-- The bit that the reference host reads (R87). -/
theorem statusWord_snapDirty (s : State) : (statusWord s).getLsbD 6 = s.snapDirty := by
  have := s.cnt.isLt; have := s.d.toNat_lt; have := s.ssp.toNat_lt
  rw [bit_eq_div, statusWord_toNat]
  cases h : s.snapDirty <;> simp <;> omega

/-! The merges. -/

@[simp] theorem ackDirty_fresh (d : Bool) : ackDirty false d = false := rfl

@[simp] theorem ackDirty_stale (d : Bool) : ackDirty true d = d := rfl

@[simp] theorem setOver_event (x : Bool) : setOver true x = true := rfl

@[simp] theorem setOver_quiet (x : Bool) : setOver false x = x := rfl

theorem setOver_eq_or (e x : Bool) : setOver e x = (e || x) := by cases e <;> rfl

/-! The button path. -/

theorem Button.acc_iff (b : Button) (c : Config) :
    b.acc c = true ↔ b.prev = true ∧ b.lvl c = false ∧ b.age.toNat = ageMax c := by
  simp [Button.acc, Button.fall, and_assoc]

/-- With a valid configuration the lockout timer loses nothing to its 8 bits. -/
theorem nextAge_toNat (c : Config) (acc : Bool) (age : BitVec 8) (tick : Bool) (h : c.Valid) :
    (nextAge c acc age tick).toNat =
      min (ageMax c) ((if acc then 0 else age.toNat) + (if tick then 1 else 0)) := by
  have := h.2.1
  simp only [nextAge, BitVec.toNat_ofNat]
  apply Nat.mod_eq_of_lt
  have : ageMax c ≤ 255 := by unfold ageMax; omega
  omega

theorem Button.next_legal {b : Button} {c : Config} (h : b.Legal c) (v : c.Valid) (sample tick : Bool) :
    (b.next c sample tick).Legal c := by
  refine ⟨?_, ?_⟩
  · have := h.1; have := v.2.2.1
    simp [Button.next]; omega
  · simp only [Button.next, nextAge_toNat _ _ _ _ v]; omega

theorem Button.afterReset_legal {c : Config} (v : c.Valid) : (Button.afterReset c).Legal c := by
  have := v.2.1
  refine ⟨by simp [Button.afterReset], ?_⟩
  simp only [Button.afterReset, BitVec.toNat_ofNat]
  exact Nat.mod_le _ _

theorem incStep_val (c : Fin 10) (a : Bool) :
    (incStep c a).1.val = if a = true ∧ c.val < 9 then c.val + 1 else c.val := by
  unfold incStep; split <;> rfl

theorem incStep_changed (c : Fin 10) (a : Bool) : (incStep c a).2 = decide (a = true ∧ c.val < 9) := by
  unfold incStep; split <;> simp_all

theorem decStep_val (c : Fin 10) (a : Bool) :
    (decStep c a).1.val = if a = true ∧ 0 < c.val then c.val - 1 else c.val := by
  unfold decStep; split <;> rfl

theorem decStep_changed (c : Fin 10) (a : Bool) : (decStep c a).2 = decide (a = true ∧ 0 < c.val) := by
  unfold decStep; split <;> simp_all

/-! No command and no sequencer move changes what the button path reads, so the cycle's set event stays what it was. -/

@[simp] theorem State.setev_setHandoff (s : State) (x y : Bool) : (s.setHandoff x y).setev = s.setev := rfl

@[simp] theorem State.setev_setSnapshot (s : State) (g : Digit) (y : Bool) : (s.setSnapshot g y).setev = s.setev := rfl

@[simp] theorem State.setev_setStream (s : State) (b : Bool) (n : StreamIndex) : (s.setStream b n).setev = s.setev := rfl

@[simp] theorem State.setev_setErrRecord (s : State) (e : Bool) (c : BitVec 3) (w : CmdWord) : (s.setErrRecord e c w).setev = s.setev := rfl

@[simp] theorem State.setev_setFb (s : State) (f : Vector Pixel 25) : (s.setFb f).setev = s.setev := rfl

@[simp] theorem State.setev_setInputs (s : State) (l : List Inputs) : (s.setInputs l).setev = s.setev := rfl

/-- The counter changes only in a set event (R86). -/
theorem countNext_quiet (c : Fin 10) (a b : Bool) (h : setEvent c a b = false) : countNext c a b = c := by
  revert c a b; decide

/-- The button path writes the buttons' registers, `CNT`, `D` and `SSP`, and nothing else (R36). -/
theorem State.buttonPath_eq (s : State) (inp : Inputs) :
    s.buttonPath inp =
      { s with
        inc := s.inc.next s.cfg (inp.btnN.getLsbD 0) inp.msTick
        dec := s.dec.next s.cfg (inp.btnN.getLsbD 1) inp.msTick
        cnt := countNext s.cnt (s.inc.acc s.cfg) (s.dec.acc s.cfg)
        d := setOver s.setev s.d
        ssp := setOver s.setev s.ssp } := rfl

end Sys2Proof.Machine
end

