-- ==== Sys2Proof/Laws/PerInstr.lean ====
section
/-! SUPPORT. The family RowOf: the word of every command, its operands at every value, selects its own row of the opcode
map (R59) and no other. -/

namespace Sys2Proof.Laws.RowOf

open Sys2Proof

/-- The command's word selects its row and no other row of the opcode map. -/
def Statement (i : Instr) : Prop := opcodeMap.filter (·.selects (encode i)) = [i.row]

theorem nop : Statement .nop := by unfold Statement; decide

theorem poll : Statement .poll := by unfold Statement; decide

theorem ack : Statement .ack := by unfold Statement; decide

theorem renderSnap : Statement .renderSnap := by unfold Statement; decide

theorem renderImm (dig : BitVec 4) : Statement (.renderImm dig) := by
  unfold Statement; revert dig; decide

theorem clear : Statement .clear := by unfold Statement; decide

theorem setpix (idx : BitVec 5) (red grn blu : Byte) : Statement (.setpix idx red grn blu) := by
  have w := encode_setpix_toNat idx red grn blu
  have := idx.isLt; have := red.isLt; have := grn.isLt; have := blu.isLt
  have own : (OpRow.selects ⟨0xA0000000#32, 0xE0000000#32⟩ (encode (.setpix idx red grn blu))) = true := by
    rw [selects_setpix, decide_eq_true_eq]; omega
  have render : (OpRow.selects ⟨0x70000000#32, 0xFFFFFFF0#32⟩ (encode (.setpix idx red grn blu))) = false := by
    rw [selects_renderImm, decide_eq_false_iff_not]; omega
  have whole (p : CmdWord) (h : p.toNat < 0xA0000000 ∨ 0xC0000000 ≤ p.toNat) :
      (OpRow.selects ⟨p, 0xFFFFFFFF#32⟩ (encode (.setpix idx red grn blu))) = false := by
    rw [selects_exact, decide_eq_false_iff_not]; omega
  simp [Statement, opcodeMap, List.filter, own, render, whole 0#32 (by decide), whole 0x20000000#32 (by decide),
    whole 0x40000000#32 (by decide), whole 0x60000000#32 (by decide), whole 0x80000000#32 (by decide),
    whole 0xC0000000#32 (by decide), Instr.row]

theorem commit : Statement .commit := by unfold Statement; decide

end Sys2Proof.Laws.RowOf
end

