-- ==== Sys2Proof/Laws/Step.lean ====
section
/-! SUPPORT. What a step can do, said once: the inversion of `step`, of the command path and of an accepted word, and the
equations that run them forward. -/

namespace Sys2Proof.Machine

open Sys2Proof

variable {s t u : State}

theorem step_badConfig (h : ¬ s.cfg.Valid) : step s = .refused .badConfig := by
  simp only [step, cycle, if_pos h]

theorem step_reset (v : s.cfg.Valid) (r : s.input.rst = true) : step s = .next s.afterReset.nextCycle := by
  simp only [step, cycle, if_neg (not_not_intro v), if_pos r]

theorem step_unreachable (v : s.cfg.Valid) (r : s.input.rst = false) (h : ¬ s.Legal) :
    step s = .refused .unreachableState := by
  simp only [step, cycle, if_neg (not_not_intro v), r, if_pos h, Bool.false_eq_true, if_false]

/-- A cycle without reset: the command path or the sequencer, and the button path with it. -/
theorem step_run (v : s.cfg.Valid) (r : s.input.rst = false) (l : s.Legal) (h : commandPath s.input s = .next u) :
    step s = .next (u.buttonPath s.input).nextCycle := by
  simp only [step, cycle, if_neg (not_not_intro v), r, if_neg (not_not_intro l), h, Bool.false_eq_true, if_false]

/-- Every way a step can answer a next state. -/
theorem step_cases (h : step s = .next t) :
    s.cfg.Valid ∧
      ((s.input.rst = true ∧ t = s.afterReset.nextCycle) ∨
        (s.input.rst = false ∧ s.Legal ∧
          ∃ u, commandPath s.input s = .next u ∧ t = (u.buttonPath s.input).nextCycle)) := by
  by_cases v : s.cfg.Valid
  · refine ⟨v, ?_⟩
    cases r : s.input.rst
    · by_cases l : s.Legal
      · cases c : commandPath s.input s with
        | next u => rw [step_run v r l c] at h; cases h; exact .inr ⟨rfl, l, u, rfl, rfl⟩
        | fault e => cases e
        | refused e =>
          simp only [step, cycle, if_neg (not_not_intro v), r, if_neg (not_not_intro l), c, Bool.false_eq_true,
            if_false] at h
          cases h
      · rw [step_unreachable v r l] at h; cases h
    · rw [step_reset v r] at h; cases h; exact .inl ⟨rfl, rfl⟩
  · rw [step_badConfig v] at h; cases h

/-- Every way the command path can go: the sequencer, an accepted word, or nothing offered. -/
theorem commandPath_cases {inp : Inputs} (h : commandPath inp s = .next u) :
    (s.busy = true ∧ u = s.sequencer inp.txReady) ∨
      (s.busy = false ∧ inp.cmdValid = true ∧ acceptWord inp.cmd s = .next u) ∨
      (s.busy = false ∧ inp.cmdValid = false ∧ u = s) := by
  unfold commandPath at h
  cases b : s.busy <;> cases c : inp.cmdValid <;> simp_all

/-- Every way an accepted word can go. -/
theorem acceptWord_cases {w : CmdWord} (h : acceptWord w s = .next u) :
    (∃ i, decode w = .command i ∧ exec i s = .next u) ∨ (∃ f, decode w = .fault f ∧ u = s.recordFault f w) := by
  unfold acceptWord at h
  cases d : decode w <;> simp_all

/-- No meaning stops. -/
theorem exec_total (i : Instr) (s : State) : ∃ t, exec i s = .next t := by
  cases i with
  | renderImm dig =>
    by_cases h : dig.toNat < 10
    · exact ⟨_, dif_pos h⟩
    · exact ⟨_, dif_neg h⟩
  | setpix idx red grn blu =>
    by_cases h : idx.toNat < 25
    · exact ⟨_, dif_pos h⟩
    · exact ⟨_, dif_neg h⟩
  | _ => exact ⟨_, rfl⟩

/-- The command path never stops. -/
theorem commandPath_total (inp : Inputs) (s : State) : ∃ u, commandPath inp s = .next u := by
  unfold commandPath
  split
  · exact ⟨_, rfl⟩
  · split
    · unfold acceptWord; split
      · exact exec_total _ s
      · exact ⟨_, rfl⟩
    · exact ⟨_, rfl⟩

/-- Where the model gives a next state. -/
theorem step_total (v : s.cfg.Valid) (h : s.input.rst = true ∨ s.Legal) : ∃ t, step s = .next t := by
  cases r : s.input.rst
  · obtain ⟨u, hu⟩ := commandPath_total s.input s
    exact ⟨_, step_run v r (by simpa [r] using h) hu⟩
  · exact ⟨_, step_reset v r⟩

end Sys2Proof.Machine
end

