-- ==== Sys2Proof/Laws/Run.lean ====
section
/-! SUPPORT. Runs: one cycle more, a run after a run, and that `State.run` is the host's run of the machine. -/

namespace Sys2Proof.Machine

open Sys2Proof

@[simp] theorem State.run_zero (s : State) : State.run 0 s = .next s := rfl

theorem State.run_next {s t : State} (n : Nat) (h : step s = .next t) : State.run (n + 1) s = State.run n t := by
  simp only [State.run, h]

/-- The first cycle of a run that answers a next state. -/
theorem State.run_succ_cases {n : Nat} {s t : State} (h : State.run (n + 1) s = .next t) :
    ∃ u, step s = .next u ∧ State.run n u = .next t := by
  unfold State.run at h
  cases e : step s with
  | next u => rw [e] at h; exact ⟨u, rfl, h⟩
  | fault r => rw [e] at h; cases h
  | refused r => rw [e] at h; cases h

/-- A run after a run. -/
theorem State.run_add {m : Nat} (n : Nat) {s t : State} (h : State.run m s = .next t) :
    State.run (m + n) s = State.run n t := by
  induction m generalizing s with
  | zero => cases h; rw [Nat.zero_add]
  | succ m ih =>
    obtain ⟨u, hu, ht⟩ := State.run_succ_cases h
    rw [Nat.add_right_comm, State.run_next _ hu, ih ht]

theorem State.run_eq_core (n : Nat) (s : State) : State.run n s = Host.Core.run Sys2Proof.core n s := by
  induction n generalizing s with
  | zero => rfl
  | succ n ih =>
    simp only [State.run, Host.Core.run]
    have : Sys2Proof.core.step s = step s := rfl
    rw [this]
    cases step s with
    | next t => exact ih t
    | fault r => rfl
    | refused r => rfl

end Sys2Proof.Machine
end

