-- ==== Sys2Proof/Tests/Slice0.lean ====
section
/-! SUPPORT. Tests: expected results are the spec's own examples and tables (95_test_vectors.md and the rules named). Then
one witness for each statement of Certificates/Slice0/Obligations.lean that has hypotheses: a state and operands that meet
them all. -/

namespace Sys2Proof.Tests

open Sys2Proof Sys2Proof.Machine

/-! ## WellFormed -/

/-- R59: the extra condition `DIG` <= 9. -/
theorem test_wellFormed_digit : (Instr.renderImm 9).WellFormed = true ∧ (Instr.renderImm 10).WellFormed = false := by
  decide

/-- R59: the extra condition `IDX` <= 24. -/
theorem test_wellFormed_index :
    (Instr.setpix 24 0 0 0).WellFormed = true ∧ (Instr.setpix 25 0 0 0).WellFormed = false := by decide

/-! ## Encoding (R57, R59, L2.6). Each word is written out bit by bit from its format. -/

theorem test_decode_nop : decode 0b000_00000000000000000000000000000#32 = .command .nop := by decide
theorem test_decode_poll : decode 0b001_00000000000000000000000000000#32 = .command .poll := by decide
theorem test_decode_ack : decode 0b010_00000000000000000000000000000#32 = .command .ack := by decide
theorem test_decode_renderSnap : decode 0b011_0_000000000000000000000000_0000#32 = .command .renderSnap := by decide
theorem test_decode_renderImm : decode 0b011_1_000000000000000000000000_0101#32 = .command (.renderImm 5) := by decide
theorem test_decode_clear : decode 0b100_00000000000000000000000000000#32 = .command .clear := by decide
theorem test_decode_setpix :
    decode 0b101_00111_00010010_00110100_01010110#32 = .command (.setpix 7 0x12 0x34 0x56) := by decide
theorem test_decode_commit : decode 0b110_00000000000000000000000000000#32 = .command .commit := by decide

/-- L2.6: the reserved and illegal words. -/
theorem test_decode_faults :
    decode 0x10000000#32 = .fault .reservedBits ∧ decode 0x40008000#32 = .fault .reservedBits ∧
      decode 0x68000000#32 = .fault .reservedBits ∧ decode 0x70000010#32 = .fault .reservedBits ∧
      decode 0x7000000F#32 = .fault .badDigit ∧ decode 0xBF0000FF#32 = .fault .badIndex ∧
      decode 0xFFFFFFFF#32 = .fault .illegalOpcode := by decide

/-- L2.6, "Assembly checks". -/
theorem test_encode_words :
    encode (.setpix 0 255 0 0) = 0xA0FF0000#32 ∧ encode (.setpix 12 0 0 255) = 0xAC0000FF#32 ∧
      encode (.renderImm 5) = 0x70000005#32 := by decide

theorem test_tableWord : decodeTableWord 32 0xA7123456 = some (.setpix 7 0x12 0x34 0x56) ∧
    decodeTableWord 32 0x7000000A = none := by decide

/-- L2.6: what an assembler refuses, and R64's `SHOW #d`. -/
theorem test_assembler :
    assemble (.renderImm 10) = none ∧ assemble (.setpix 25 0 0 0) = none ∧ assemble (.setpix 3 256 0 0) = none ∧
      assembleText "SHOW #5".toList = some [0x70000005#32, 0xC0000000#32] ∧
      assembleText "RENDER #10".toList = none := by decide

/-- R63: numbers in both bases, and a comment. -/
theorem test_assembler_setpix : assembleText "SETPIX 7, 0x12, 52, 86 ; x".toList = some [0xA7123456#32] := by decide

/-! ## States and cycles -/

/-- The fixture ROM `F[d] = 2^(d+1) - 1` of 95_test_vectors.md, section 0: a test input. -/
def fixtureRom : Vector GlyphWord 10 := Vector.ofFn fun d => BitVec.ofNat 25 (2 ^ (d.val + 1) - 1)

/-- The reset state with the fixture ROM. -/
def base : State := { State.reset with rom := fixtureRom }

/-- Idle inputs with a command offered. -/
def offering (w : CmdWord) : Inputs := { Inputs.idle with cmdValid := true, cmd := w }

/-- The state an outcome answers, or the reset state. -/
def after (o : Host.Outcome State Fault Refusal) : State :=
  match o with
  | .next t => t
  | .fault _ => State.reset
  | .refused _ => State.reset

/-- One cycle with these inputs. -/
def one (s : State) (i : Inputs) : State := after (step (s.setInputs [i]))

/-- A button whose falling edge is seen in this cycle, with this age. -/
def pressed (age : BitVec 8) : Button := { sync := [false, false], prev := true, age := age }

/-- L2.11: STATUS after reset, after a POLL and after an ACK. -/
theorem test_status :
    statusWord base = 0x30#32 ∧ statusWord (one base (offering 0x20000000#32)) = 0x50#32 ∧
      statusWord (one (one base (offering 0x20000000#32)) (offering 0x40000000#32)) = 0x40#32 := by decide

/-- L2.11: `CNT` = 9, `D` = 1, `SSP` = 1, `SNAP_DIGIT` = 8, `SNAP_DIRTY` = 1, `BUSY` = 1. -/
theorem test_status_fields :
    statusWord { base with cnt := 9, snapDigit := 8, snapDirty := true, busy := true } = 0x8F9#32 := by decide

/-- L2.1: the synchroniser samples the low line, stage 0 first. -/
theorem test_synchroniser :
    (one base { Inputs.idle with btnN := 2 }).inc.sync = [false, true] ∧
      (one base { Inputs.idle with btnN := 2 }).dec.sync = [true, true] := by decide

/-- L2.1, cycle 2: an accepted edge. -/
theorem test_incEdge :
    (one { base with inc := pressed 201 } Inputs.idle).cnt = 1 ∧
      (one { base with inc := pressed 201 } Inputs.idle).inc.age = 0 := by decide

/-- L2.2: 200 ticks are not more than 200. -/
theorem test_lockout_strict :
    (one { base with inc := pressed 200 } { Inputs.idle with msTick := true }).cnt = 0 ∧
      (one { base with inc := pressed 200 } { Inputs.idle with msTick := true }).inc.age = 201 := by decide

/-- L2.2: a tick in the cycle of an accepted edge. -/
theorem test_lockout_restart :
    (one { base with inc := pressed 201 } { Inputs.idle with msTick := true }).inc.age = 1 := by decide

/-- L2.4: both buttons from 9 and from 0. -/
theorem test_bothEdges :
    countNext 9 true true = 8 ∧ countNext 0 true true = 0 ∧ setEvent 0 true true = true ∧
      countNext 4 true true = 4 := by decide

/-- L2.4: a saturated step is no set event. -/
theorem test_saturation :
    countNext 9 true false = 9 ∧ setEvent 9 true false = false ∧ countNext 0 false true = 0 ∧
      setEvent 0 false true = false := by decide

/-- The start state of L2.5 with `D` = 1. -/
def merging (ssp : Bool) (age : BitVec 8) : State :=
  { base with cnt := 3, snapDigit := 7, snapDirty := false, d := true, ssp := ssp, inc := pressed age }

/-- L2.5, row `1 1 1 POLL`. -/
theorem test_poll_in_setEvent :
    let t := one (merging true 201) (offering 0x20000000#32)
    t.cnt = 4 ∧ t.d = true ∧ t.ssp = true ∧ t.snapDigit = 3 ∧ t.snapDirty = true := by decide

/-- L2.5, rows `1 0 0 ACK` and `1 0 1 ACK`. -/
theorem test_ack_merges :
    (one (merging false 200) (offering 0x40000000#32)).d = false ∧
      (one (merging false 201) (offering 0x40000000#32)).d = true := by decide

/-- L2.5, row `1 1 0 ACK`. -/
theorem test_ack_stale : (one (merging true 200) (offering 0x40000000#32)).d = true := by decide

/-- R83: NOP changes no register of DMC. -/
theorem test_nop : (one base (offering 0#32)).setInputs [] = { base with inputs := [], cycle := 1 } := by decide

/-- L2.8: `RENDER #1` lights 23 and 24. -/
theorem test_renderImm :
    let t := one base (offering 0x70000001#32)
    t.fbRead 22 = 0 ∧ t.fbRead 23 = 0x0000FF#24 ∧ t.fbRead 24 = 0x0000FF#24 := by decide

/-- L2.8: `RENDER SNAP` with `CNT` = 6 and `SNAP_DIGIT` = 5 draws digit 5. -/
theorem test_renderSnap :
    let t := one { base with cnt := 6, snapDigit := 5 } (offering 0x60000000#32)
    t.fbRead 15 = 0x0000FF#24 ∧ t.fbRead 16 = 0 ∧ t.fbRead 20 = 0x0000FF#24 := by decide

/-- L2.7: a glyph with only the left column lit. -/
theorem test_leftColumn :
    (image (Vector.replicate 10 0x0108421#25) 3).toList.zipIdx.filterMap
      (fun p => if p.1 = 0x0000FF#24 then some p.2 else none) = [4, 5, 14, 15, 24] := by decide

/-- L2.8: CLEAR. -/
theorem test_clear : (one { base with fb := Vector.replicate 25 7 } (offering 0x80000000#32)).fb = blankFrame := by
  decide

/-- R100, example: `SETPIX 7, 0x12, 0x34, 0x56`, and its stream words 21, 22, 23. -/
theorem test_setpix :
    let t := one base (offering 0xA7123456#32)
    t.fbRead 7 = 0x123456#24 ∧ t.fbRead 8 = 0 ∧ txWord 32 t.fb 21 = 0x34000000#32 ∧
      txWord 32 t.fb 22 = 0x12000000#32 ∧ txWord 32 t.fb 23 = 0x56000000#32 := by decide

/-- L2.9: other word widths. -/
theorem test_wordWidths :
    wireWord 8 0xFF = 0xFF#8 ∧ wireWord 16 0xFF = 0xFF00#16 ∧ wireWord 24 0xFF = 0xFF0000#24 := by decide

/-- R97, example. -/
theorem test_commit :
    let t := one base (offering 0xC0000000#32)
    t.busy = true ∧ t.k = 0 ∧ t.outputs.txValid = true ∧ t.outputs.cmdReady = false := by decide

/-- A commit at its last word. -/
def lastWord : State := { base with busy := true, k := 74 }

/-- L2.9: the last word is taken while a command is offered, which is not accepted. -/
theorem test_lastWord :
    let t := one lastWord (offering 0x20000000#32)
    t.busy = false ∧ t.k = 0 ∧ t.ssp = true := by decide

/-- L2.9: a stalled transport. -/
theorem test_stall : (one lastWord { Inputs.idle with txReady := false }).k = 74 := by decide

/-- L2.10: the first fault's record, and a second fault. -/
theorem test_faultRecord :
    let t := one base (offering 0xB9000000#32)
    statusWord t = 0x7030#32 ∧ t.errCmd = 0xB9000000#32 ∧
      (one t (offering 0xE0000000#32)).errCmd = 0xB9000000#32 := by decide

/-- L2.10: a faulting word and an accepted edge in one cycle. -/
theorem test_fault_with_edge :
    statusWord (one { base with inc := pressed 201 } (offering 0xFFFFFFFF#32)) = 0x3031#32 := by decide

/-- L2.9: reset during a commit. -/
theorem test_reset_in_commit :
    let t := one lastWord { Inputs.idle with rst := true }
    t.busy = false ∧ t.k = 0 ∧ t.d = true := by decide

/-- R6, I5: what the model refuses. -/
theorem test_refusals :
    (match step ({ base with cfg := { Config.standard with debounceMs := 255 } }.setInputs [Inputs.idle]) with
      | .refused .badConfig => true | _ => false) = true ∧
    (match step ({ base with d := false }.setInputs [Inputs.idle]) with
      | .refused .unreachableState => true | _ => false) = true := by decide

/-- The host's offer is taken by the very next step, a commit in progress or not. -/
theorem test_withFetchWord :
    (after (step (State.reset.withFetchWord 32 0xC0000000))).busy = true ∧
      (after (step (lastWord.withFetchWord 32 0xB9000000))).errCode = 3 := by decide

/-! ## Witnesses: each meets all the hypotheses of the statement it is named after. -/

/-- An outcome that is a next state is the next state of `after`. -/
def Answers (s : State) : Prop := step s = .next (after (step s))

/-- The reset state with the fixture ROM and these inputs listed. -/
def given (i : Inputs) : State := base.setInputs [i]

theorem witness_DecodeOfEncodeIsTheCommand :
    (Instr.setpix 24 255 255 255).WellFormed = true ∧ (Instr.renderImm 9).WellFormed = true := by decide

theorem witness_DisassemblyInvertsAssembly :
    decode 0xB8FFFFFF#32 = .command (.setpix 24 255 255 255) ∧ decode 0xB9000000#32 = .fault .badIndex := by decide

theorem witness_AssemblerEmitsTheCommandAsWritten :
    (∀ w, AsmLine.setpix 24 255 255 255 ≠ .word w) ∧ assemble (.setpix 24 255 255 255) = some 0xB8FFFFFF#32 ∧
      (∀ w, AsmLine.setpix 24 255 255 256 ≠ .word w) ∧ assemble (.setpix 24 255 255 256) = none ∧
      (∀ w, AsmLine.renderImm 10 ≠ .word w) ∧ assemble (.renderImm 10) = none := by
  refine ⟨nofun, by decide, nofun, by decide, nofun, by decide⟩

theorem witness_FaultCauseOfEveryWord :
    decode 0xB9000000#32 = .fault .badIndex ∧ decode 0x7000000A#32 = .fault .badDigit ∧
      decode 0x6000000A#32 = .fault .reservedBits ∧ decode 0x00000001#32 = .fault .reservedBits ∧
      decode 0xE0000000#32 = .fault .illegalOpcode := by decide

theorem witness_OpcodeMapSelectsOneRow :
    decode 0x70000009#32 = .command (.renderImm 9) ∧ decode 0x7000000A#32 = .fault .badDigit ∧
      decode 0xB9000000#32 = .fault .badIndex ∧ decode 0x68000000#32 = .fault .reservedBits := by decide

/-- A state that no run reaches, with a reset on its port. -/
def wild : State := { given { Inputs.idle with rst := true } with d := false, k := 9, errCode := 7 }

theorem witness_ResetFromAnyState : wild.cfg.Valid ∧ wild.input.rst = true ∧ ¬ wild.Legal := by decide

theorem witness_OutputsAroundReset : wild.input.rst = true ∧ Answers wild := ⟨by decide, rfl⟩

theorem witness_ResetStateIsGood : base.cfg.Valid := by decide

theorem witness_OutputPortsShowTheState : lastWord.busy = true ∧ base.busy = false := by decide

theorem witness_EveryStepKeepsTheInvariant : (given Inputs.idle).Good ∧ Answers (given Inputs.idle) := ⟨by decide, rfl⟩

theorem witness_RunsFromResetKeepTheInvariants : base.cfg.Valid := by decide

theorem witness_RefusalsAreExact :
    ¬ ({ base with cfg := { Config.standard with wordW := 7 } } : State).cfg.Valid ∧
      (given Inputs.idle).cfg.Valid ∧ (given Inputs.idle).input.rst = false ∧ (given Inputs.idle).Legal ∧
      ¬ ({ given Inputs.idle with d := false } : State).Legal := by decide

/-- POLL, ACK with `SSP` = 0, COMMIT and a faulting word, each accepted in this cycle. -/
def polling : State := given (offering 0x20000000#32)
/-- See `polling`. -/
def acking : State := { given (offering 0x40000000#32) with ssp := false }
/-- See `polling`. -/
def committing : State := given (offering 0xC0000000#32)
/-- See `polling`. -/
def faulting : State := given (offering 0xE0000000#32)
/-- An accepted press of the Increment button, no command offered. -/
def pressing : State := { given Inputs.idle with inc := pressed 201 }

theorem witness_StepRunsTheAcceptedCommand :
    polling.cfg.Valid ∧ polling.Legal ∧ polling.acceptedWord = some 0x20000000#32 ∧
      decode 0x20000000#32 = .command .poll ∧ exec .poll polling = .next (after (exec .poll polling)) :=
  ⟨by decide, by decide, by decide, by decide, rfl⟩

theorem witness_CycleAgreesWithTheRule :
    polling.cfg.Valid ∧ polling.Legal ∧ wild.cfg.Valid ∧ wild.input.rst = true := by decide

theorem witness_DirtyFlagMerge :
    (Answers acking ∧ acking.input.rst = false ∧ acking.setev = false ∧ acking.acceptedWord = some 0x40000000#32 ∧
      acking.ssp = false) ∧
    (Answers pressing ∧ pressing.input.rst = false ∧ pressing.setev = true) :=
  ⟨⟨rfl, by decide⟩, ⟨rfl, by decide⟩⟩

theorem witness_SetSincePollMerge :
    (Answers polling ∧ polling.input.rst = false ∧ polling.setev = false ∧
      polling.acceptedWord = some 0x20000000#32) ∧
    (Answers pressing ∧ pressing.input.rst = false ∧ pressing.setev = true) :=
  ⟨⟨rfl, by decide⟩, ⟨rfl, by decide⟩⟩

theorem witness_FaultingWordOnlyRecords :
    (faulting.cfg.Valid ∧ faulting.Legal ∧ faulting.acceptedWord = some 0xE0000000#32 ∧
      decode 0xE0000000#32 = .fault .illegalOpcode ∧ faulting.err = false) ∧
    (let s := { faulting with err := true, errCode := 3, errCmd := 0xB9000000#32 }
     Answers s ∧ s.input.rst = false ∧ s.err = true ∧ s.Legal ∧ s.acceptedWord = some 0xE0000000#32) :=
  ⟨by decide, rfl, by decide⟩

/-- Each clause's register does change in one of these cycles. -/
theorem witness_OnlyTheListedWritersWrite :
    (Answers acking ∧ acking.input.rst = false ∧ (after (step acking)).d ≠ acking.d) ∧
    (Answers polling ∧ (after (step polling)).ssp ≠ polling.ssp ∧
      (after (step polling)).snapDirty ≠ polling.snapDirty) ∧
    (Answers committing ∧ (after (step committing)).busy ≠ committing.busy) ∧
    (Answers faulting ∧ (after (step faulting)).err ≠ faulting.err) ∧
    (Answers (given (offering 0xB8000001#32)) ∧
      (after (step (given (offering 0xB8000001#32)))).fb ≠ (given (offering 0xB8000001#32)).fb) :=
  ⟨⟨rfl, by decide⟩, ⟨rfl, by decide⟩, ⟨rfl, by decide⟩, ⟨rfl, by decide⟩, ⟨rfl, by decide⟩⟩

theorem witness_UnacceptedWordHasNoEffect : lastWord.busy = true ∧ wild.input.rst = true := by decide

theorem witness_ButtonPathIgnoresTheOtherPaths :
    Answers pressing ∧ Answers { pressing with busy := true, k := 74 } ∧ pressing.input.rst = false ∧
      (after (step pressing)).cnt ≠ pressing.cnt :=
  ⟨rfl, rfl, by decide, by decide⟩

theorem witness_RenderDigitCompletes : (9#4).toNat < 10 ∧ 10 ≤ (10#4).toNat ∧ base.err = false := by decide

theorem witness_SetPixelCompletes :
    (24#5).toNat < 25 ∧ 25 ≤ (25#5).toNat ∧ (23 : PixIndex).val ≠ (24#5).toNat ∧ faulting.err = false ∧
      (after (step faulting)).err = true := by decide

theorem witness_FrameOfEveryCommand :
    exec (.setpix 24 1 2 3) base = .next (after (exec (.setpix 24 1 2 3) base)) ∧
      exec (.setpix 25 1 2 3) base = .next (after (exec (.setpix 25 1 2 3) base)) :=
  ⟨rfl, rfl⟩

theorem witness_PollTakesAnUntornSnapshot :
    polling.cfg.Valid ∧ polling.Legal ∧ polling.acceptedWord = some 0x20000000#32 ∧ opField 0x3FFFFFFF#32 = 0b001#3 ∧
      0x3FFFFFFF#32 ≠ 0x20000000#32 := by decide

theorem witness_AckClearsOnlyTheSameGeneration :
    acking.cfg.Valid ∧ acking.Legal ∧ acking.acceptedWord = some 0x40000000#32 ∧ opField 0x40008000#32 = 0b010#3 ∧
      lastWord.busy = true := by decide

theorem witness_CommitPresentsWordZero :
    committing.cfg.Valid ∧ committing.Legal ∧ committing.acceptedWord = some 0xC0000000#32 ∧
      opField 0xC0000001#32 = 0b110#3 ∧ lastWord.busy = true := by decide

theorem witness_SynchroniserAndEdges :
    IsButton State.inc 0 ∧ IsButton State.dec 1 ∧ Answers pressing ∧ pressing.input.rst = false ∧
      pressing.inc.fall pressing.cfg = true :=
  ⟨.inl ⟨rfl, rfl⟩, .inr ⟨rfl, rfl⟩, rfl, by decide, by decide⟩

theorem witness_LockoutTimerUpdate :
    IsButton State.inc 0 ∧ Answers pressing ∧ pressing.input.rst = false ∧
      Answers (given { Inputs.idle with msTick := true }) ∧ Answers (given { Inputs.idle with msTick := false }) :=
  ⟨.inl ⟨rfl, rfl⟩, rfl, by decide, rfl, rfl⟩

theorem witness_AcceptanceIsStrict :
    IsButton State.inc 0 ∧ pressing.Legal ∧ ({ base with inc := pressed 200 } : State).Legal ∧
      (pressed 200).age.toNat = base.cfg.debounceMs :=
  ⟨.inl ⟨rfl, rfl⟩, by decide, by decide, by decide⟩

theorem witness_CounterTransition : Answers pressing ∧ pressing.input.rst = false ∧ pressing.setev = true :=
  ⟨rfl, by decide, by decide⟩

/-- Both events, each at a bound and away from it. -/
theorem witness_AcceptedEdgeEvents :
    (pressing.cfg.Valid ∧ pressing.Legal ∧ pressing.input.rst = false ∧ pressing.acceptedWord = none ∧
      pressing.inc.acc pressing.cfg = true ∧ pressing.dec.acc pressing.cfg = false ∧ pressing.cnt.val < 9) ∧
    ({ pressing with cnt := 9 } : State).Legal ∧
    (let s : State := { given Inputs.idle with dec := pressed 201 }
     s.Legal ∧ s.acceptedWord = none ∧ s.inc.acc s.cfg = false ∧ s.dec.acc s.cfg = true ∧ s.cnt.val = 0) ∧
    ({ given Inputs.idle with dec := pressed 201, cnt := 1 } : State).Legal := by decide

theorem witness_DebouncerMatchesTimestamps : base.cfg.Valid := by decide

/-- An accepted press in this cycle, both clocks at 300 and the last press of Increment 201 ticks ago. -/
def timed : Tracked :=
  { dmc := pressing, inc := { now := 300, last := some 99 }, dec := { now := 300, last := none } }

theorem witness_TimestampsStayInAgreement :
    timed.Agrees ∧ timed.dmc.inc.acc timed.dmc.cfg = true ∧ ∃ y, timed.step = some y := ⟨by decide, by decide, _, rfl⟩

theorem witness_TimestampsStartInAgreement : base.cfg.Valid ∧ timed.Agrees := by decide

/-- A press sampled in the first of `SYNC_STAGES` = 2 cycles. -/
theorem witness_ButtonLatency :
    IsButton State.inc 0 ∧ base.Good ∧ noReset [{ Inputs.idle with btnN := 2 }, Inputs.idle] ∧
      [{ Inputs.idle with btnN := 2 }, Inputs.idle].length = base.cfg.syncStages ∧
      base.inc.sync[0]? = some true ∧ ({ Inputs.idle with btnN := 2 } : Inputs).btnN.getLsbD 0 = false :=
  ⟨.inl ⟨rfl, rfl⟩, by decide, by unfold noReset; decide, by decide, by decide, by decide⟩

/-- A fast DMC: a lockout of 1 tick, one synchroniser stage, 8-bit words, and an edge on Increment. -/
def fast : State :=
  { base with
    cfg := { debounceMs := 1, syncStages := 1, wordW := 8 }
    inc := { sync := [false], prev := true, age := 2 }
    dec := { sync := [true], prev := true, age := 2 } }

/-- Released, then pressed again, a tick in each cycle. -/
def twoTicks : List Inputs := [{ Inputs.idle with msTick := true }, { Inputs.idle with msTick := true, btnN := 2 }]

/-- Two accepted edges exactly `AGE_MAX` = 2 ticks apart. -/
theorem witness_LockoutSpacing :
    IsButton State.inc 0 ∧ fast.Good ∧ noReset twoTicks ∧ fast.inc.acc fast.cfg = true ∧
      fast.runOn twoTicks = .next (after (fast.runOn twoTicks)) ∧
      (after (fast.runOn twoTicks)).inc.acc (after (fast.runOn twoTicks)).cfg = true :=
  ⟨.inl ⟨rfl, rfl⟩, by decide, by unfold noReset; decide, by decide, rfl, by decide⟩

theorem witness_SequencerTakesOneWordPerReadyCycle :
    (lastWord.setInputs [Inputs.idle]).cfg.Valid ∧ (lastWord.setInputs [Inputs.idle]).Legal ∧
      (lastWord.setInputs [Inputs.idle]).input.rst = false ∧ lastWord.busy = true ∧ lastWord.k.val = 74 ∧
      Inputs.idle.txReady = true ∧ ({ lastWord with k := 73 } : State).Legal := by decide

/-- A stream of 75 ready cycles, the last one after 74. -/
theorem witness_CommitStreamsTheFrameAsItStood :
    base.Good ∧ noReset (List.replicate 74 Inputs.idle ++ [Inputs.idle]) ∧
      (base.setInputs (offering 0xC0000000#32 :: (List.replicate 74 Inputs.idle ++ [Inputs.idle]))).acceptedWord =
        some 0xC0000000#32 ∧
      readyCount (List.replicate 74 Inputs.idle) = 74 ∧ Inputs.idle.txReady = true :=
  ⟨by decide, by unfold noReset; decide, by decide, by decide, by decide⟩

theorem witness_StreamWordIsAChannelInTheTopByte :
    lastWord.k.val / 3 < 25 ∧ lastWord.cfg.Valid ∧ lastWord.busy = true := by decide

theorem witness_FrameWritesAreIdempotent :
    (9#4).toNat ≤ 9 ∧ base.rom = fixtureRom ∧ writesFrame (.renderImm 9) = true ∧
      exec (.renderImm 9) base = .next (after (exec (.renderImm 9) base)) :=
  ⟨by decide, rfl, rfl, rfl⟩

/-- A redraw from the first cycle after reset: POLL, RENDER SNAP, COMMIT, the 75 words, ACK. -/
def redraw : State :=
  base.setInputs ([offering 0x20000000#32, offering 0x60000000#32, offering 0xC0000000#32] ++
    List.replicate 75 Inputs.idle ++ [offering 0x40000000#32])

/-- The state after `n` cycles of `redraw`. -/
def redrawAt (n : Nat) : State := after (State.run n redraw.afterReset)

/-- `n` cycles of `redraw` answer a next state. -/
def redrawRuns (n : Nat) : Prop := State.run n redraw.afterReset = .next (redrawAt n)

/-- The POLL in cycle 0, RENDER SNAP in cycle 1, COMMIT in cycle 2, and the ACK in cycle 78 clears `D`. -/
theorem witness_NoUpdateIsLost :
    redraw.cfg.Valid ∧ redrawRuns 78 ∧ Answers (redrawAt 78) ∧ (redrawAt 78).acceptedWord = some 0x40000000#32 ∧
      (redrawAt 78).d = true ∧ (after (step (redrawAt 78))).d = false ∧
      redrawRuns 1 ∧ (redrawAt 1).acceptedWord = some 0x60000000#32 ∧
      redrawRuns 2 ∧ (redrawAt 2).acceptedWord = some 0xC0000000#32 :=
  ⟨by decide, by unfold redrawRuns; rfl, by unfold Answers; rfl, by decide +kernel, by decide +kernel, by decide +kernel,
    by unfold redrawRuns; rfl, by decide +kernel, by unfold redrawRuns; rfl, by decide +kernel⟩

/-- The host at the start of its loop with 79 idle cycles before it. -/
def boot : Closed := Closed.afterReset (base.setInputs (List.replicate 79 Inputs.idle))

theorem witness_ReferenceHostKeepsTheFrameCurrent : boot.Sound ∧ ∃ c, boot.step = some c := ⟨by decide, _, rfl⟩

theorem witness_ReferenceHostStartsSound : base.cfg.Valid ∧ boot.Sound := by decide

theorem witness_RedrawTakes79Cycles :
    boot.Sound ∧ boot.host = .poll ∧ boot.dmc.d = true ∧ boot.dmc.inputs = List.replicate 79 Inputs.idle ++ [] ∧
      (List.replicate 79 Inputs.idle).length = 79 ∧ noReset (List.replicate 79 Inputs.idle) ∧
      alwaysReady (List.replicate 79 Inputs.idle) ∧ ∃ x, Closed.run 1 boot = some x :=
  ⟨by decide, rfl, rfl, by decide, by decide, by unfold noReset; decide, by unfold alwaysReady; decide, _, rfl⟩

end Sys2Proof.Tests
end

