-- ==== Sys2Proof/Proofs/Refusals.lean ====
section
/-! PROOF. Where the model refuses a cycle (R6, I5): a step has three outcomes, and the conditions under which it
answers them exclude each other. -/

namespace Sys2Proof.Machine

open Sys2Proof

variable {s : State}

/-- The three outcomes of a step, each with its condition; there is no fourth. -/
theorem step_outcome (s : State) :
    (¬ s.cfg.Valid ∧ step s = .refused .badConfig) ∨
      ((s.cfg.Valid ∧ s.input.rst = false ∧ ¬ s.Legal) ∧ step s = .refused .unreachableState) ∨
      ((s.cfg.Valid ∧ (s.input.rst = true ∨ s.Legal)) ∧ ∃ t, step s = .next t) := by
  by_cases v : s.cfg.Valid
  · by_cases runs : s.input.rst = true ∨ s.Legal
    · exact .inr (.inr ⟨⟨v, runs⟩, step_total v runs⟩)
    · obtain ⟨noReset, illegal⟩ := not_or.mp runs
      have r : s.input.rst = false := Bool.eq_false_of_not_eq_true noReset
      exact .inr (.inl ⟨⟨v, r, illegal⟩, step_unreachable v r illegal⟩)
  · exact .inl ⟨v, step_badConfig v⟩

theorem step_eq_badConfig_iff : step s = .refused .badConfig ↔ ¬ s.cfg.Valid := by
  refine ⟨fun h => ?_, step_badConfig⟩
  obtain ⟨bad, -⟩ | ⟨-, e⟩ | ⟨-, t, e⟩ := step_outcome s
  · exact bad
  · rw [e] at h; cases h
  · rw [e] at h; cases h

theorem step_eq_unreachableState_iff :
    step s = .refused .unreachableState ↔ s.cfg.Valid ∧ s.input.rst = false ∧ ¬ s.Legal := by
  refine ⟨fun h => ?_, fun ⟨v, r, illegal⟩ => step_unreachable v r illegal⟩
  obtain ⟨-, e⟩ | ⟨unreachable, -⟩ | ⟨-, t, e⟩ := step_outcome s
  · rw [e] at h; cases h
  · exact unreachable
  · rw [e] at h; cases h

theorem exists_step_eq_next_iff : (∃ t, step s = .next t) ↔ s.cfg.Valid ∧ (s.input.rst = true ∨ s.Legal) := by
  refine ⟨fun ⟨t, h⟩ => ?_, fun ⟨v, runs⟩ => step_total v runs⟩
  obtain ⟨v, ⟨r, -⟩ | ⟨-, legal, -⟩⟩ := step_cases h
  · exact ⟨v, .inl r⟩
  · exact ⟨v, .inr legal⟩

/-- The ranges of R6 in the order in which the obligation lists them, the word width before the synchroniser's depth. -/
theorem config_valid_iff (c : Config) :
    c.Valid ↔ 1 ≤ c.debounceMs ∧ c.debounceMs ≤ 254 ∧ 8 ≤ c.wordW ∧ 1 ≤ c.syncStages := by
  rw [and_comm (a := 8 ≤ c.wordW)]

/-- Settles O14: each clause is one outcome of `step_outcome`, and the conditions of the three exclude each other. -/
theorem refusalsAreExact : Obligations.RefusalsAreExact := by
  intro s
  rw [← config_valid_iff]
  exact ⟨step_eq_badConfig_iff, step_eq_unreachableState_iff, exists_step_eq_next_iff⟩

end Sys2Proof.Machine
end

