-- ==== Sys2Proof/Proofs/StateInvariants.lean ====
section
/-! PROOF. The state of 10_state.md: what one cycle can do to it, said once as the table of writers of R36
(`PathEffect`), and from that the invariants of R39 and the frame of every command; beside them the reset state (R38), the
STATUS word (R32) and the output ports (R17). -/

namespace Sys2Proof

/-! ## The word of a decoded command -/

/-- A word is its opcode and its other 29 bits (R56). -/
theorem word_ext {v w : CmdWord} (op : opField v = opField w) (low : v.toNat % 2 ^ 29 = w.toNat % 2 ^ 29) : v = w := by
  apply BitVec.eq_of_toNat_eq
  have : v.toNat / 2 ^ 29 = w.toNat / 2 ^ 29 := by rw [← opField_toNat, ← opField_toNat, op]
  omega

/-- Format Z, for a command whose own word has nothing but its opcode (R57). -/
theorem decodeZ_command {i j : Instr} {w : CmdWord} (h : decodeZ i w = .command j) (legal : i.WellFormed = true)
    (op : opField w = opField (encode i)) (bare : (encode i).toNat % 2 ^ 29 = 0) :
    j.WellFormed = true ∧ encode j = w := by
  obtain ⟨-, e⟩ | ⟨low, e⟩ := decodeZ_cases i w
  · rw [e] at h; cases h
  · rw [e] at h; cases h
    have low : w.toNat % 2 ^ 29 = 0 := by simpa [toNat_field] using congrArg BitVec.toNat low
    exact ⟨legal, word_ext op.symm (bare.trans low.symm)⟩

theorem decodeG_command {i : Instr} {w : CmdWord} (h : decodeG w = .command i) (op : opField w = 0b011#3) :
    i.WellFormed = true ∧ encode i = w := by
  obtain ⟨-, e⟩ | ⟨mid, m, dig, e⟩ | ⟨-, -, -, e⟩ | ⟨mid, m, dig, e⟩ := decodeG_cases w
  · rw [e] at h; cases h
  · rw [e] at h; cases h
    have mid := congrArg BitVec.toNat mid
    have dig := congrArg BitVec.toNat dig
    have own : (encode .renderSnap).toNat = 0x60000000 := rfl
    simp only [toNat_field, bit_eq_div, decide_eq_false_iff_not, BitVec.ofNat_eq_ofNat, BitVec.toNat_ofNat]
      at mid m dig
    exact ⟨rfl, word_ext op.symm (by omega)⟩
  · rw [e] at h; cases h
  · rw [e] at h; cases h
    have legal : (Instr.renderImm (w.extractLsb' 0 4)).WellFormed = true := by simpa [Instr.WellFormed] using dig
    have mid := congrArg BitVec.toNat mid
    have own := encode_renderImm_toNat (w.extractLsb' 0 4)
    simp only [toNat_field, bit_eq_div, decide_eq_true_eq, BitVec.ofNat_eq_ofNat, BitVec.toNat_ofNat] at mid m own
    exact ⟨legal, word_ext ((opField_renderImm _).trans op.symm) (by omega)⟩

theorem decodeP_command {i : Instr} {w : CmdWord} (h : decodeP w = .command i) (op : opField w = 0b101#3) :
    i.WellFormed = true ∧ encode i = w := by
  obtain ⟨-, e⟩ | ⟨idx, e⟩ := decodeP_cases w
  · rw [e] at h; cases h
  · rw [e] at h; cases h
    have own := encode_setpix_toNat (w.extractLsb' 24 5) (w.extractLsb' 16 8) (w.extractLsb' 8 8) (w.extractLsb' 0 8)
    simp only [toNat_field] at own
    exact ⟨by simpa [Instr.WellFormed] using idx, word_ext ((opField_setpix _ _ _ _).trans op.symm) (by omega)⟩

/-- Only legal commands are decoded, each from its own word (R57, R59, R60). -/
theorem decode_command {w : CmdWord} {i : Instr} (h : decode w = .command i) :
    i.WellFormed = true ∧ encode i = w := by
  obtain op | op | op | op | op | op | op | op := opField_cases w
  · rw [decode_op0 op] at h; exact decodeZ_command h rfl op rfl
  · rw [decode_op1 op] at h; exact decodeZ_command h rfl op rfl
  · rw [decode_op2 op] at h; exact decodeZ_command h rfl op rfl
  · rw [decode_op3 op] at h; exact decodeG_command h op
  · rw [decode_op4 op] at h; exact decodeZ_command h rfl op rfl
  · rw [decode_op5 op] at h; exact decodeP_command h op
  · rw [decode_op6 op] at h; exact decodeZ_command h rfl op rfl
  · rw [decode_op7 op] at h; cases h

end Sys2Proof

namespace Sys2Proof.Machine

open Sys2Proof

variable {s t u : State}

/-! ## What one command can do -/

/-- Every way a command can go, by the one shared write it makes. -/
theorem exec_cases {i : Instr} (h : exec i s = .next t) :
    (i = .nop ∧ t = s) ∨
      (i = .poll ∧ t = (s.setSnapshot s.cnt s.d).setHandoff s.d false) ∨
      (i = .ack ∧ t = s.setHandoff (ackDirty s.ssp s.d) s.ssp) ∨
      (i = .commit ∧ t = s.setStream true 0) ∨
      (writesFrame i = true ∧ i.WellFormed = true ∧ ∃ f, t = s.setFb f) ∨
      (writesFrame i = true ∧ i.WellFormed = false ∧ ∃ f w, t = s.recordFault f w) := by
  cases i with
  | nop => cases h; simp
  | poll => cases h; simp
  | ack => cases h; simp
  | commit => cases h; simp
  | renderSnap => cases h; simp [writesFrame, Instr.WellFormed]
  | clear => cases h; simp [writesFrame, Instr.WellFormed]
  | renderImm dig =>
    simp only [exec, execRenderImm] at h
    split at h
    · cases h
      have legal : dig.toNat ≤ 9 := by omega
      simp [writesFrame, Instr.WellFormed, legal]
    · cases h
      have illegal : 9 < dig.toNat := by omega
      simp [writesFrame, Instr.WellFormed, illegal]
  | setpix idx red grn blu =>
    simp only [exec, execSetpix] at h
    split at h
    · cases h
      have legal : idx.toNat ≤ 24 := by omega
      simp [writesFrame, Instr.WellFormed, legal, State.fbWrite]
    · cases h
      have illegal : 24 < idx.toNat := by omega
      simp [writesFrame, Instr.WellFormed, illegal]

theorem State.fbRead_recordFault (s : State) (f : CmdFault) (w : CmdWord) (j : PixIndex) :
    (s.recordFault f w).fbRead j = s.fbRead j := by
  rw [State.recordFault_eq]; rfl

/-- SETPIX writes no entry but `IDX` (R100). -/
theorem exec_setpix_other {idx : BitVec 5} {red grn blu : Byte} (h : exec (.setpix idx red grn blu) s = .next t)
    {j : PixIndex} (other : j.val ≠ idx.toNat) : t.fbRead j = s.fbRead j := by
  simp only [exec, execSetpix] at h
  split at h
  · cases h
    exact State.fbRead_fbWrite_other s _ fun e => other (congrArg Fin.val e).symm
  · cases h
    exact State.fbRead_recordFault s _ _ j

/-- Settles O27: each command makes one of the writes of `exec_cases`, and each write leaves the rest alone. -/
theorem frameOfEveryCommand : Obligations.FrameOfEveryCommand := by
  intro i s t h
  have setpix : ∀ idx red grn blu, i = .setpix idx red grn blu →
      ∀ j : PixIndex, j.val ≠ idx.toNat → t.fbRead j = s.fbRead j := by
    rintro idx red grn blu rfl j other
    exact exec_setpix_other h other
  obtain ⟨rfl, rfl⟩ | ⟨rfl, rfl⟩ | ⟨rfl, rfl⟩ | ⟨rfl, rfl⟩ | ⟨frame, legal, f, rfl⟩ | ⟨-, illegal, f, w, rfl⟩ :=
    exec_cases h
  · simp
  · simp [State.fbRead]
  · simp [State.fbRead]
  · simp [State.fbRead, Instr.WellFormed]
  · simpa [frame, legal] using setpix
  · have kept := State.fbRead_recordFault s f w
    rw [State.recordFault_eq] at kept ⊢
    simp [illegal, kept]

/-! ## What one cycle can do -/

/-- The table of writers of R36, without reset and without the button path: each way in which the command path or the
sequencer can change a state, with the condition under which it does. -/
inductive PathEffect (s : State) : State → Prop
  /-- Nothing is accepted, or NOP, or a fault that is not the first; or the transport is not ready. -/
  | idle : PathEffect s s
  /-- POLL (R84). -/
  | poll (accepted : s.acceptedWord = some 0x20000000#32) :
      PathEffect s ((s.setSnapshot s.cnt s.d).setHandoff s.d false)
  /-- ACK (R85). -/
  | ack (accepted : s.acceptedWord = some 0x40000000#32) : PathEffect s (s.setHandoff (ackDirty s.ssp s.d) s.ssp)
  /-- COMMIT (R97). -/
  | commit (accepted : s.acceptedWord = some 0xC0000000#32) : PathEffect s (s.setStream true 0)
  /-- A command that writes the frame buffer (R94 to R96, R100). -/
  | frame {w : CmdWord} {i : Instr} (accepted : s.acceptedWord = some w) (command : decode w = .command i)
      (writes : writesFrame i = true) (f : Vector Pixel 25) : PathEffect s (s.setFb f)
  /-- The first faulting word (R104). -/
  | fault {w : CmdWord} {f : CmdFault} (accepted : s.acceptedWord = some w) (faulty : decode w = .fault f)
      (first : s.err = false) : PathEffect s (s.setErrRecord true f.code w)
  /-- The sequencer has a word taken (R98). -/
  | stream (busy : s.busy = true) (ready : s.input.txReady = true) {b : Bool} {n : StreamIndex}
      (ends : b = false → n = 0) : PathEffect s (s.setStream b n)

theorem PathEffect.of_sequencer (busy : s.busy = true) : PathEffect s (s.sequencer s.input.txReady) := by
  cases ready : s.input.txReady with
  | false => exact .idle
  | true =>
    by_cases last : s.k.val = 74
    · rw [State.sequencer_last s last]
      exact .stream busy ready fun _ => rfl
    · rw [State.sequencer_more s (by omega)]
      exact .stream busy ready (by simp)

theorem PathEffect.of_fault {w : CmdWord} {f : CmdFault} (accepted : s.acceptedWord = some w)
    (faulty : decode w = .fault f) : PathEffect s (s.recordFault f w) := by
  cases first : s.err with
  | false =>
    rw [State.recordFault_first s f w first]
    exact .fault accepted faulty first
  | true =>
    rw [State.recordFault_later s f w first]
    exact .idle

theorem PathEffect.of_command {w : CmdWord} {i : Instr} (accepted : s.acceptedWord = some w)
    (command : decode w = .command i) (h : exec i s = .next u) : PathEffect s u := by
  obtain ⟨legal, rfl⟩ := decode_command command
  obtain ⟨rfl, rfl⟩ | ⟨rfl, rfl⟩ | ⟨rfl, rfl⟩ | ⟨rfl, rfl⟩ | ⟨writes, -, f, rfl⟩ | ⟨-, illegal, -⟩ := exec_cases h
  · exact .idle
  · exact .poll accepted
  · exact .ack accepted
  · exact .commit accepted
  · exact .frame accepted command writes f
  · rw [legal] at illegal; cases illegal

/-- A cycle without reset: one effect of the command path or the sequencer, and the button path with it. -/
theorem step_effect (h : step s = .next t) (r : s.input.rst = false) :
    ∃ u, PathEffect s u ∧ t = (u.buttonPath s.input).nextCycle := by
  obtain ⟨-, ⟨reset, -⟩ | ⟨-, -, u, path, rfl⟩⟩ := step_cases h
  · rw [r] at reset; cases reset
  · refine ⟨u, ?_, rfl⟩
    obtain ⟨busy, rfl⟩ | ⟨free, valid, word⟩ | ⟨-, -, rfl⟩ := commandPath_cases path
    · exact .of_sequencer busy
    · have accepted : s.acceptedWord = some s.input.cmd := State.acceptedWord_some.mpr ⟨valid, free, r, rfl⟩
      obtain ⟨i, command, run⟩ | ⟨f, faulty, rfl⟩ := acceptWord_cases word
      · exact .of_command accepted command run
      · exact .of_fault accepted faulty
    · exact .idle

/-! What the button path leaves in each field. -/

section
variable (inp : Inputs)

@[simp] theorem State.buttonPath_cfg : (s.buttonPath inp).cfg = s.cfg := rfl
@[simp] theorem State.buttonPath_rom : (s.buttonPath inp).rom = s.rom := rfl
@[simp] theorem State.buttonPath_inc :
    (s.buttonPath inp).inc = s.inc.next s.cfg (inp.btnN.getLsbD 0) inp.msTick := rfl
@[simp] theorem State.buttonPath_dec :
    (s.buttonPath inp).dec = s.dec.next s.cfg (inp.btnN.getLsbD 1) inp.msTick := rfl
@[simp] theorem State.buttonPath_cnt :
    (s.buttonPath inp).cnt = countNext s.cnt (s.inc.acc s.cfg) (s.dec.acc s.cfg) := rfl
@[simp] theorem State.buttonPath_d : (s.buttonPath inp).d = setOver s.setev s.d := rfl
@[simp] theorem State.buttonPath_ssp : (s.buttonPath inp).ssp = setOver s.setev s.ssp := rfl
@[simp] theorem State.buttonPath_snapDigit : (s.buttonPath inp).snapDigit = s.snapDigit := rfl
@[simp] theorem State.buttonPath_snapDirty : (s.buttonPath inp).snapDirty = s.snapDirty := rfl
@[simp] theorem State.buttonPath_busy : (s.buttonPath inp).busy = s.busy := rfl
@[simp] theorem State.buttonPath_k : (s.buttonPath inp).k = s.k := rfl
@[simp] theorem State.buttonPath_err : (s.buttonPath inp).err = s.err := rfl
@[simp] theorem State.buttonPath_errCode : (s.buttonPath inp).errCode = s.errCode := rfl
@[simp] theorem State.buttonPath_errCmd : (s.buttonPath inp).errCmd = s.errCmd := rfl
@[simp] theorem State.buttonPath_fb : (s.buttonPath inp).fb = s.fb := rfl

end

/-- What the button path reads, and the read-only state, is out of the command path's and the sequencer's reach (R68). -/
theorem PathEffect.unread (e : PathEffect s u) :
    u.cfg = s.cfg ∧ u.rom = s.rom ∧ u.inc = s.inc ∧ u.dec = s.dec ∧ u.cnt = s.cnt ∧ u.setev = s.setev := by
  cases e <;> simp

/-- A flag after the button path has changed by a set event, or was changed before it. -/
theorem setOver_ne {e x y : Bool} (h : setOver e x ≠ y) : (e = true ∧ setOver e x = true) ∨ (x ≠ y ∧ setOver e x = x) := by
  cases e
  · exact .inr ⟨h, rfl⟩
  · exact .inl ⟨rfl, rfl⟩

/-- R36 row by row, before the button path's share of `D` and `SSP`. -/
theorem PathEffect.writers (e : PathEffect s u) :
    (u.d ≠ s.d → s.acceptedWord = some 0x40000000#32 ∧ u.d = false) ∧
    (u.ssp ≠ s.ssp → s.acceptedWord = some 0x20000000#32 ∧ u.ssp = false) ∧
    (u.snapDigit ≠ s.snapDigit ∨ u.snapDirty ≠ s.snapDirty → s.acceptedWord = some 0x20000000#32) ∧
    (u.fb ≠ s.fb → ∃ w i, s.acceptedWord = some w ∧ decode w = .command i ∧ writesFrame i = true) ∧
    (u.busy ≠ s.busy ∨ u.k ≠ s.k →
      s.acceptedWord = some 0xC0000000#32 ∨ (s.busy = true ∧ s.input.txReady = true)) ∧
    (u.err ≠ s.err ∨ u.errCode ≠ s.errCode ∨ u.errCmd ≠ s.errCmd →
      s.err = false ∧ ∃ w f, s.acceptedWord = some w ∧ decode w = .fault f) := by
  cases e with
  | idle => simp
  | poll accepted => simp [accepted]
  | ack accepted => cases ssp : s.ssp <;> simp [accepted]
  | commit accepted => simp [accepted]
  | frame accepted command writes f => simpa using fun _ => ⟨_, accepted, _, command, writes⟩
  | fault accepted faulty first => simpa [first] using ⟨_, accepted, _, faulty⟩
  | stream busy ready ends => simp [busy, ready]

/-- Settles O20: `PathEffect` is the table of writers, and the button path adds its own. -/
theorem onlyTheListedWritersWrite : Obligations.OnlyTheListedWritersWrite := by
  intro s t h r
  obtain ⟨u, e, rfl⟩ := step_effect h r
  obtain ⟨cfg, rom, inc, dec, cnt, setev⟩ := e.unread
  obtain ⟨d, ssp, snap, fb, stream, record⟩ := e.writers
  refine ⟨by simp [inc, cfg], by simp [dec, cfg], by simp [cnt, inc, dec, cfg], fun changed => ?_, fun changed => ?_,
    snap, fb, stream, record, rom, cfg⟩
  · obtain ⟨event, set⟩ | ⟨before, kept⟩ := setOver_ne changed
    · exact .inl ⟨setev ▸ event, set⟩
    · exact .inr ⟨(d before).1, kept.trans (d before).2⟩
  · obtain ⟨event, set⟩ | ⟨before, kept⟩ := setOver_ne changed
    · exact .inl ⟨setev ▸ event, set⟩
    · exact .inr ⟨(ssp before).1, kept.trans (ssp before).2⟩

/-! ## The invariants of R39 and of the handoff -/

/-- The parameters stay for ever (R5). -/
theorem step_cfg (h : step s = .next t) : t.cfg = s.cfg := by
  obtain ⟨-, ⟨-, rfl⟩ | ⟨r, -⟩⟩ := step_cases h
  · rfl
  · obtain ⟨u, e, rfl⟩ := step_effect h r
    exact e.unread.1

theorem State.Good.legal (good : s.Good) : s.Legal := by
  obtain ⟨⟨-, inc, dec, rests, dirty, noErr, record⟩, -⟩ := good
  refine ⟨inc, dec, rests, dirty, ?_⟩
  cases err : s.err
  · simp [(noErr err).1]
  · exact (record err).2

theorem State.afterReset_good (v : s.cfg.Valid) : s.afterReset.Good :=
  ⟨⟨v, Button.afterReset_legal v, Button.afterReset_legal v, by simp, by simp, by simp, by simp⟩, by simp [State.Fresh]⟩

theorem PathEffect.good (good : s.Good) (e : PathEffect s u) : u.Good := by
  have ⟨⟨valid, inc, dec, rests, dirty, noErr, record⟩, fresh⟩ := good
  cases e with
  | idle => exact good
  | poll _ => exact ⟨⟨valid, inc, dec, rests, by simp, noErr, record⟩, by simp [State.Fresh]⟩
  | ack _ =>
    refine ⟨⟨valid, inc, dec, rests, ?_, noErr, record⟩, ?_⟩
    · intro (ssp : s.ssp = true)
      simp [ssp, dirty ssp]
    · intro (ssp : s.ssp = false)
      simp [ssp, (fresh ssp).1]
  | commit _ => exact ⟨⟨valid, inc, dec, by simp, dirty, noErr, record⟩, fresh⟩
  | frame _ _ _ f => exact good
  | fault _ _ _ => exact ⟨⟨valid, inc, dec, rests, dirty, by simp, fun _ => faultCode_range _⟩, fresh⟩
  | stream _ _ ends => exact ⟨⟨valid, inc, dec, ends, dirty, noErr, record⟩, fresh⟩

/-- A set event sets `D` and `SSP`; without one the counter is what it was (R79). -/
theorem State.buttonPath_good (good : s.Good) (inp : Inputs) : (s.buttonPath inp).Good := by
  obtain ⟨⟨valid, inc, dec, rests, dirty, noErr, record⟩, fresh⟩ := good
  refine ⟨⟨valid, Button.next_legal inc valid _ _, Button.next_legal dec valid _ _, rests, ?_, noErr, record⟩, ?_⟩
  · rw [State.buttonPath_d, State.buttonPath_ssp]
    cases s.setev
    · exact dirty
    · exact fun _ => rfl
  · rw [State.Fresh, State.buttonPath_d, State.buttonPath_ssp, State.buttonPath_cnt]
    cases event : s.setev
    · rw [countNext_quiet _ _ _ event]
      exact fresh
    · simp

theorem step_good (good : s.Good) (h : step s = .next t) : t.Good := by
  obtain ⟨v, ⟨-, rfl⟩ | ⟨r, -⟩⟩ := step_cases h
  · exact State.afterReset_good v
  · obtain ⟨u, e, rfl⟩ := step_effect h r
    exact State.buttonPath_good (e.good good) s.input

/-- A run from a good state goes on for ever, through good states with its parameters (R133). -/
theorem State.run_good (n : Nat) (good : s.Good) : ∃ t, State.run n s = .next t ∧ t.Good ∧ t.cfg = s.cfg := by
  induction n generalizing s with
  | zero => exact ⟨s, rfl, good, rfl⟩
  | succ n ih =>
    obtain ⟨u, h⟩ := step_total good.1.1 (.inr good.legal)
    obtain ⟨t, run, goodT, cfg⟩ := ih (step_good good h)
    exact ⟨t, (State.run_next n h).trans run, goodT, cfg.trans (step_cfg h)⟩

/-- Settles O12: every effect of the command path and the sequencer keeps the invariant, and so does the button path. -/
theorem everyStepKeepsTheInvariant : Obligations.EveryStepKeepsTheInvariant :=
  fun _ _ => step_good

/-- Settles O9: the standard reset state by evaluation, every other by `State.afterReset_good`. -/
theorem resetStateIsGood : Obligations.ResetStateIsGood :=
  ⟨by decide, fun _ => State.afterReset_good⟩

/-- Settles O13, by `State.run_good` from the reset state; the bounds on `CNT`, `SNAP_DIGIT` and `K` are in their types. -/
theorem runsFromResetKeepTheInvariants : Obligations.RunsFromResetKeepTheInvariants := by
  intro n s v
  obtain ⟨t, run, ⟨⟨-, inc, dec, rests, dirty, noErr, record⟩, -⟩, cfg⟩ :=
    State.run_good n (State.afterReset_good v)
  rw [State.afterReset_cfg] at cfg
  rw [cfg] at inc dec
  exact ⟨t, run, Nat.le_of_lt_succ t.cnt.isLt, Nat.le_of_lt_succ t.snapDigit.isLt, inc.2, dec.2,
    Nat.le_of_lt_succ t.k.isLt, rests, dirty, noErr, record⟩

/-! ## Reset -/

@[simp] theorem Button.afterReset_sync (c : Config) :
    (Button.afterReset c).sync = List.replicate c.syncStages true := rfl

@[simp] theorem Button.afterReset_prev (c : Config) : (Button.afterReset c).prev = true := rfl

/-- With a valid configuration `AGE_MAX` fits the timer's 8 bits. -/
theorem Button.afterReset_age {c : Config} (v : c.Valid) : (Button.afterReset c).age.toNat = c.debounceMs + 1 := by
  obtain ⟨-, upper, -⟩ := v
  exact Nat.mod_eq_of_lt (by unfold ageMax; omega)

/-- Settles O7: the model leads to `State.afterReset`, whose registers are R38's. -/
theorem resetFromAnyState : Obligations.ResetFromAnyState := by
  intro s v r
  refine ⟨s.afterReset.nextCycle, step_reset v r, ?_⟩
  have blank (i : PixIndex) : s.afterReset.nextCycle.fbRead i = 0 := blankFrame_get i
  simp [Button.afterReset_age v, blank]

/-! ## STATUS and the output ports -/

/-- A bit of a word as a digit of its number. -/
theorem getLsbD_of_div {n : Nat} {w : BitVec n} {i : Nat} {b : Bool} (h : w.toNat / 2 ^ i % 2 = b.toNat) :
    w.getLsbD i = b := by
  rw [bit_eq_div, h]; cases b <;> rfl

theorem statusWord_fields (s : State) :
    (statusWord s).extractLsb' 0 4 = BitVec.ofNat 4 s.cnt.val ∧ (statusWord s).getLsbD 4 = s.d ∧
    (statusWord s).getLsbD 5 = s.ssp ∧ (statusWord s).getLsbD 6 = s.snapDirty ∧
    (statusWord s).getLsbD 7 = s.busy ∧ (statusWord s).extractLsb' 8 4 = BitVec.ofNat 4 s.snapDigit.val ∧
    (statusWord s).getLsbD 12 = s.err ∧ (statusWord s).extractLsb' 13 3 = s.errCode ∧
    (statusWord s).extractLsb' 16 16 = 0 := by
  have cnt := s.cnt.isLt; have digit := s.snapDigit.isLt; have code := s.errCode.isLt
  have d := s.d.toNat_lt; have ssp := s.ssp.toNat_lt; have dirty := s.snapDirty.toNat_lt
  have busy := s.busy.toNat_lt; have err := s.err.toNat_lt
  refine ⟨BitVec.eq_of_toNat_eq ?_, getLsbD_of_div ?_, getLsbD_of_div ?_, getLsbD_of_div ?_, getLsbD_of_div ?_,
    BitVec.eq_of_toNat_eq ?_, getLsbD_of_div ?_, BitVec.eq_of_toNat_eq ?_, BitVec.eq_of_toNat_eq ?_⟩ <;>
  · simp only [toNat_field, statusWord_toNat, BitVec.ofNat_eq_ofNat, BitVec.toNat_ofNat]
    omega

theorem statusWord_afterReset (s : State) : statusWord s.afterReset = 0x00000030#32 :=
  BitVec.eq_of_toNat_eq (by simp [statusWord_toNat])

/-- Settles O10: each field is a run of digits of STATUS as a number. -/
theorem statusWordFields : Obligations.StatusWordFields :=
  ⟨statusWord_fields, statusWord_afterReset⟩

/-- Settles O11: each port is defined as the register or the word that R17 names, gated by `BUSY` where R17 says so. -/
theorem outputPortsShowTheState : Obligations.OutputPortsShowTheState := by
  intro s
  exact ⟨rfl, rfl, fun busy => if_pos busy, fun free => if_neg (by simp [free]), rfl, rfl⟩

end Sys2Proof.Machine
end

