-- ==== Sys2Proof/Proofs/Encoding.lean ====
section
/-! PROOF. The encoding of 30_encoding.md: the word of a command and what a word decodes to (R57 to R61), the opcode map
(R59), the assembler and the disassembler with their text (R63, R65), and which offered words are accepted (R55). -/

namespace Sys2Proof

/-! ## The command of a word (R57, R58, R60) -/

section
variable (idx : BitVec 5) (red grn blu : Byte)

theorem encode_setpix_idx : (encode (.setpix idx red grn blu)).extractLsb' 24 5 = idx := by
  apply BitVec.eq_of_toNat_eq
  have := idx.isLt; have := red.isLt; have := grn.isLt; have := blu.isLt
  rw [toNat_field, encode_setpix_toNat]; omega

theorem encode_setpix_red : (encode (.setpix idx red grn blu)).extractLsb' 16 8 = red := by
  apply BitVec.eq_of_toNat_eq
  have := red.isLt; have := grn.isLt; have := blu.isLt
  rw [toNat_field, encode_setpix_toNat]; omega

theorem encode_setpix_grn : (encode (.setpix idx red grn blu)).extractLsb' 8 8 = grn := by
  apply BitVec.eq_of_toNat_eq
  have := grn.isLt; have := blu.isLt
  rw [toNat_field, encode_setpix_toNat]; omega

theorem encode_setpix_blu : (encode (.setpix idx red grn blu)).extractLsb' 0 8 = blu := by
  apply BitVec.eq_of_toNat_eq
  have := blu.isLt
  rw [toNat_field, encode_setpix_toNat]; omega

theorem decode_encode_setpix :
    decode (encode (.setpix idx red grn blu)) =
      if 24 < idx.toNat then .fault .badIndex else .command (.setpix idx red grn blu) := by
  rw [decode_op5 (opField_setpix idx red grn blu), decodeP, encode_setpix_idx, encode_setpix_red, encode_setpix_grn,
    encode_setpix_blu]

end

theorem decode_encode_renderImm (dig : BitVec 4) :
    decode (encode (.renderImm dig)) =
      if 9 < dig.toNat then .fault .badDigit else .command (.renderImm dig) := by
  revert dig; decide

/-- What the word of any command decodes to: the command, or, for an operand out of range, that operand's fault. -/
theorem decode_encode_cases (i : Instr) :
    (i.WellFormed = true ∧ decode (encode i) = .command i) ∨
      (∃ dig, i = .renderImm dig ∧ 9 < dig.toNat ∧ decode (encode i) = .fault .badDigit) ∨
      (∃ idx red grn blu, i = .setpix idx red grn blu ∧ 24 < idx.toNat ∧ decode (encode i) = .fault .badIndex) := by
  cases i with
  | renderImm dig =>
    by_cases illegal : 9 < dig.toNat
    · exact .inr (.inl ⟨dig, rfl, illegal, by rw [decode_encode_renderImm, if_pos illegal]⟩)
    · exact .inl ⟨decide_eq_true (by omega), by rw [decode_encode_renderImm, if_neg illegal]⟩
  | setpix idx red grn blu =>
    by_cases illegal : 24 < idx.toNat
    · exact .inr (.inr ⟨idx, red, grn, blu, rfl, illegal, by rw [decode_encode_setpix, if_pos illegal]⟩)
    · exact .inl ⟨decide_eq_true (by omega), by rw [decode_encode_setpix, if_neg illegal]⟩
  | _ => exact .inl ⟨rfl, rfl⟩

theorem decode_encode {i : Instr} (legal : i.WellFormed = true) : decode (encode i) = .command i := by
  obtain ⟨-, e⟩ | ⟨dig, rfl, illegal, -⟩ | ⟨idx, red, grn, blu, rfl, illegal, -⟩ := decode_encode_cases i
  · exact e
  · have : dig.toNat ≤ 9 := of_decide_eq_true legal
    omega
  · have : idx.toNat ≤ 24 := of_decide_eq_true legal
    omega

/-- Settles O1: the fields of an encoded command are its operands. -/
theorem decodeOfEncodeIsTheCommand : Obligations.DecodeOfEncodeIsTheCommand :=
  fun _ => decode_encode

/-- Settles O6, word by word. -/
theorem wordsOfTheDecodeVectors : Obligations.WordsOfTheDecodeVectors := by
  unfold Obligations.WordsOfTheDecodeVectors
  decide

/-! ## The fault of a word (R61, R106) -/

/-- The words that fault for a cause: the reserved bits come before the range of `DIG` (R106). -/
def FaultCondition (w : CmdWord) : CmdFault → Prop
  | .illegalOpcode => opField w = 0b111#3
  | .reservedBits =>
    (opField w ∈ [0b000#3, 0b001#3, 0b010#3, 0b100#3, 0b110#3] ∧ w.extractLsb' 0 29 ≠ 0) ∨
      (opField w = 0b011#3 ∧ (w.extractLsb' 4 24 ≠ 0 ∨ (w.getLsbD 28 = false ∧ w.extractLsb' 0 4 ≠ 0)))
  | .badIndex => opField w = 0b101#3 ∧ 25 ≤ (w.extractLsb' 24 5).toNat
  | .badDigit =>
    opField w = 0b011#3 ∧ w.extractLsb' 4 24 = 0 ∧ w.getLsbD 28 = true ∧ 10 ≤ (w.extractLsb' 0 4).toNat

variable {w : CmdWord} {f : CmdFault}

/-! Each format has its own causes, and answers each of them under its condition (R57, R60). -/

theorem decodeZ_eq_fault_iff {i : Instr} (format : opField w ∈ [0b000#3, 0b001#3, 0b010#3, 0b100#3, 0b110#3]) :
    decodeZ i w = .fault f ↔ FaultCondition w f := by
  have cause : FaultCondition w f ↔ .reservedBits = f ∧ w.extractLsb' 0 29 ≠ 0 := by
    simp only [List.mem_cons, List.not_mem_nil, or_false] at format
    obtain op | op | op | op | op := format <;> cases f <;> simp [FaultCondition, op]
  rw [cause]
  obtain ⟨low, e⟩ | ⟨low, e⟩ := decodeZ_cases i w
  · simpa [e] using fun _ => low
  · simp [e, low]

theorem decodeG_eq_fault_iff (op : opField w = 0b011#3) : decodeG w = .fault f ↔ FaultCondition w f := by
  have cause : FaultCondition w f ↔
      (.reservedBits = f ∧ (w.extractLsb' 4 24 ≠ 0 ∨ w.getLsbD 28 = false ∧ w.extractLsb' 0 4 ≠ 0)) ∨
        (.badDigit = f ∧ w.extractLsb' 4 24 = 0 ∧ w.getLsbD 28 = true ∧ 9 < (w.extractLsb' 0 4).toNat) := by
    cases f <;> simp [FaultCondition, op, Nat.succ_le_iff]
  rw [cause]
  obtain ⟨reserved, e⟩ | ⟨mid, m, dig, e⟩ | ⟨mid, m, dig, e⟩ | ⟨mid, m, dig, e⟩ := decodeG_cases w
  · have notDigit : ¬ (w.extractLsb' 4 24 = 0 ∧ w.getLsbD 28 = true ∧ 9 < (w.extractLsb' 0 4).toNat) := by
      rintro ⟨mid, m, -⟩
      obtain mid' | ⟨m', -⟩ := reserved
      · exact mid' mid
      · rw [m] at m'; cases m'
    simp only [e, reserved, notDigit, and_true, and_false, or_false, Decoded.fault.injEq]
  · simp [e, mid, dig]
  · simp [e, mid, m, dig, -BitVec.extractLsb'_toNat]
  · simp [e, mid, m, dig, -BitVec.extractLsb'_toNat]

theorem decodeP_eq_fault_iff (op : opField w = 0b101#3) : decodeP w = .fault f ↔ FaultCondition w f := by
  have cause : FaultCondition w f ↔ .badIndex = f ∧ 24 < (w.extractLsb' 24 5).toNat := by
    cases f <;> simp [FaultCondition, op, Nat.succ_le_iff]
  rw [cause]
  obtain ⟨idx, e⟩ | ⟨idx, e⟩ := decodeP_cases w
  · simp only [e, idx, and_true, Decoded.fault.injEq]
  · simp only [e, Nat.not_lt.mpr idx, and_false, reduceCtorEq]

/-- Each fault is answered exactly under its condition. -/
theorem decode_eq_fault_iff : decode w = .fault f ↔ FaultCondition w f := by
  obtain op | op | op | op | op | op | op | op := opField_cases w
  · rw [decode_op0 op]; exact decodeZ_eq_fault_iff (by simp [op])
  · rw [decode_op1 op]; exact decodeZ_eq_fault_iff (by simp [op])
  · rw [decode_op2 op]; exact decodeZ_eq_fault_iff (by simp [op])
  · rw [decode_op3 op]; exact decodeG_eq_fault_iff op
  · rw [decode_op4 op]; exact decodeZ_eq_fault_iff (by simp [op])
  · rw [decode_op5 op]; exact decodeP_eq_fault_iff op
  · rw [decode_op6 op]; exact decodeZ_eq_fault_iff (by simp [op])
  · rw [decode_op7 op]; cases f <;> simp [FaultCondition, op]

/-- Settles O4: the condition of each fault, and that only legal commands are decoded. -/
theorem faultCauseOfEveryWord : Obligations.FaultCauseOfEveryWord := by
  refine fun w => ⟨decode_eq_fault_iff, decode_eq_fault_iff, decode_eq_fault_iff, decode_eq_fault_iff, ?_⟩
  cases h : decode w with
  | command i => exact .inl ⟨i, (decode_command h).1, rfl⟩
  | fault f => exact .inr ⟨f, rfl⟩

/-! ## The opcode map (R59) -/

/-- Every command's word selects that command's row alone. -/
theorem rows_encode (i : Instr) : opcodeMap.filter (·.selects (encode i)) = [i.row] := by
  cases i with
  | nop => exact Laws.RowOf.nop
  | poll => exact Laws.RowOf.poll
  | ack => exact Laws.RowOf.ack
  | renderSnap => exact Laws.RowOf.renderSnap
  | renderImm dig => exact Laws.RowOf.renderImm dig
  | clear => exact Laws.RowOf.clear
  | setpix idx red grn blu => exact Laws.RowOf.setpix idx red grn blu
  | commit => exact Laws.RowOf.commit

theorem eq_of_selects_exact {p : CmdWord} (h : OpRow.selects ⟨p, 0xFFFFFFFF#32⟩ w = true) : p = w := by
  rw [selects_exact, decide_eq_true_eq] at h
  exact (BitVec.eq_of_toNat_eq h).symm

theorem encode_renderImm_of_selects (h : OpRow.selects ⟨0x70000000#32, 0xFFFFFFF0#32⟩ w = true) :
    encode (.renderImm (w.extractLsb' 0 4)) = w := by
  rw [selects_renderImm, decide_eq_true_eq] at h
  apply BitVec.eq_of_toNat_eq
  rw [encode_renderImm_toNat, toNat_field]; omega

theorem encode_setpix_of_selects (h : OpRow.selects ⟨0xA0000000#32, 0xE0000000#32⟩ w = true) :
    encode (.setpix (w.extractLsb' 24 5) (w.extractLsb' 16 8) (w.extractLsb' 8 8) (w.extractLsb' 0 8)) = w := by
  rw [selects_setpix, decide_eq_true_eq] at h
  apply BitVec.eq_of_toNat_eq
  simp only [encode_setpix_toNat, toNat_field]; omega

/-- A word that selects a row is the word of a command, its operands legal or not. -/
theorem exists_encode_of_selects {r : OpRow} (listed : r ∈ opcodeMap) (h : r.selects w = true) :
    ∃ i, encode i = w := by
  simp only [opcodeMap, List.mem_cons, List.not_mem_nil, or_false] at listed
  obtain rfl | rfl | rfl | rfl | rfl | rfl | rfl | rfl := listed
  · exact ⟨.nop, eq_of_selects_exact h⟩
  · exact ⟨.poll, eq_of_selects_exact h⟩
  · exact ⟨.ack, eq_of_selects_exact h⟩
  · exact ⟨.renderSnap, eq_of_selects_exact h⟩
  · exact ⟨_, encode_renderImm_of_selects h⟩
  · exact ⟨.clear, eq_of_selects_exact h⟩
  · exact ⟨_, encode_setpix_of_selects h⟩
  · exact ⟨.commit, eq_of_selects_exact h⟩

/-- A word that no operand makes faulty is no command's word, so it selects no row. -/
theorem rows_of_fault (h : decode w = .fault f) (index : f ≠ .badIndex) (digit : f ≠ .badDigit) :
    opcodeMap.filter (·.selects w) = [] := by
  refine List.filter_eq_nil_iff.mpr fun r listed selected => ?_
  obtain ⟨i, rfl⟩ := exists_encode_of_selects listed selected
  obtain ⟨-, e⟩ | ⟨-, -, -, e⟩ | ⟨-, -, -, -, -, -, e⟩ := decode_encode_cases i
  · rw [e] at h; cases h
  · rw [e] at h; cases h; exact digit rfl
  · rw [e] at h; cases h; exact index rfl

theorem selects_of_badDigit (h : FaultCondition w .badDigit) :
    OpRow.selects ⟨0x70000000#32, 0xFFFFFFF0#32⟩ w = true := by
  obtain ⟨op, mid, m, -⟩ := h
  have op := congrArg BitVec.toNat op
  have mid := congrArg BitVec.toNat mid
  simp only [opField_toNat, toNat_field, bit_eq_div, decide_eq_true_eq, BitVec.ofNat_eq_ofNat, BitVec.toNat_ofNat]
    at op mid m
  rw [selects_renderImm, decide_eq_true_eq]; omega

theorem selects_of_badIndex (h : FaultCondition w .badIndex) :
    OpRow.selects ⟨0xA0000000#32, 0xE0000000#32⟩ w = true := by
  have op := congrArg BitVec.toNat h.1
  simp only [opField_toNat, BitVec.toNat_ofNat] at op
  rw [selects_setpix, decide_eq_true_eq]; omega

/-- Settles O5: the words that select a row are the words of the commands, each of its own row; among them only an operand
out of range faults. -/
theorem opcodeMapSelectsOneRow : Obligations.OpcodeMapSelectsOneRow := by
  refine ⟨fun w i h => ?_, fun w f h => ?_⟩
  · obtain ⟨-, rfl⟩ := decode_command h
    exact rows_encode i
  · have cause := decode_eq_fault_iff.mp h
    cases f with
    | illegalOpcode => exact .inl ⟨rows_of_fault h nofun nofun, nofun, nofun⟩
    | reservedBits => exact .inl ⟨rows_of_fault h nofun nofun, nofun, nofun⟩
    | badDigit =>
      have row := rows_encode (.renderImm (w.extractLsb' 0 4))
      rw [encode_renderImm_of_selects (selects_of_badDigit cause)] at row
      obtain ⟨-, -, -, high⟩ := cause
      exact .inr (.inl ⟨row, high, rfl⟩)
    | badIndex =>
      have row := rows_encode (.setpix (w.extractLsb' 24 5) (w.extractLsb' 16 8) (w.extractLsb' 8 8) (w.extractLsb' 0 8))
      rw [encode_setpix_of_selects (selects_of_badIndex cause)] at row
      exact .inr (.inr ⟨row, cause.2, rfl⟩)

end Sys2Proof

namespace Sys2Proof.Machine

open Sys2Proof

/-! ## Assembly and disassembly (R63, R65) -/

/-- The lines that R63 refuses, among those that are no `.word`. -/
def AsmLine.OutOfRange (l : AsmLine) : Prop :=
  (∃ d, l = .renderImm d ∧ 9 < d) ∨
    (∃ i r g b, l = .setpix i r g b ∧ (24 < i ∨ 255 < r ∨ 255 < g ∨ 255 < b))

theorem assemble_outOfRange {l : AsmLine} (h : l.OutOfRange) : assemble l = none := by
  obtain ⟨d, rfl, high⟩ | ⟨i, r, g, b, rfl, high⟩ := h
  · exact if_neg (by omega)
  · exact if_neg (by omega)

/-- The lines of the commands are the lines with their operands in range. -/
theorem exists_lineOf {l : AsmLine} (command : ∀ w, l ≠ .word w) (inRange : ¬ l.OutOfRange) :
    ∃ i, i.WellFormed = true ∧ lineOf i = l := by
  cases l with
  | nop => exact ⟨.nop, rfl, rfl⟩
  | poll => exact ⟨.poll, rfl, rfl⟩
  | ack => exact ⟨.ack, rfl, rfl⟩
  | renderSnap => exact ⟨.renderSnap, rfl, rfl⟩
  | renderImm d =>
    have digit : d ≤ 9 := Nat.le_of_not_lt fun high => inRange (.inl ⟨d, rfl, high⟩)
    have d' : (BitVec.ofNat 4 d).toNat = d := Nat.mod_eq_of_lt (by omega)
    exact ⟨.renderImm (BitVec.ofNat 4 d), by simpa only [Instr.WellFormed, d', decide_eq_true_eq], congrArg _ d'⟩
  | clear => exact ⟨.clear, rfl, rfl⟩
  | setpix i r g b =>
    have operands : i ≤ 24 ∧ r ≤ 255 ∧ g ≤ 255 ∧ b ≤ 255 := by
      by_contra high
      exact inRange (.inr ⟨i, r, g, b, rfl, by omega⟩)
    have i' : (BitVec.ofNat 5 i).toNat = i := Nat.mod_eq_of_lt (by omega)
    have r' : (BitVec.ofNat 8 r).toNat = r := Nat.mod_eq_of_lt (by omega)
    have g' : (BitVec.ofNat 8 g).toNat = g := Nat.mod_eq_of_lt (by omega)
    have b' : (BitVec.ofNat 8 b).toNat = b := Nat.mod_eq_of_lt (by omega)
    refine ⟨.setpix (BitVec.ofNat 5 i) (BitVec.ofNat 8 r) (BitVec.ofNat 8 g) (BitVec.ofNat 8 b), ?_, ?_⟩
    · simpa only [Instr.WellFormed, i', decide_eq_true_eq] using operands.1
    · simp only [lineOf, i', r', g', b']
  | commit => exact ⟨.commit, rfl, rfl⟩
  | word w => exact absurd rfl (command w)

/-- A legal command's line assembles to the command's word. -/
theorem assemble_lineOf {i : Instr} (legal : i.WellFormed = true) : assemble (lineOf i) = some (encode i) := by
  cases i with
  | renderImm dig =>
    have digit : dig.toNat ≤ 9 := of_decide_eq_true legal
    rw [lineOf, assemble, if_pos digit, ← encode_renderImm_toNat, BitVec.ofNat_toNat, BitVec.setWidth_eq]
  | setpix idx red grn blu =>
    have index : idx.toNat ≤ 24 := of_decide_eq_true legal
    have := red.isLt; have := grn.isLt; have := blu.isLt
    rw [lineOf, assemble, if_pos (by omega), ← encode_setpix_toNat, BitVec.ofNat_toNat, BitVec.setWidth_eq]
  | _ => rfl

theorem assemble_word (w : CmdWord) : assemble (.word w.toNat) = some w := by
  rw [assemble, if_pos w.isLt, BitVec.ofNat_toNat, BitVec.setWidth_eq]

/-- Settles O3: the lines that are not refused are the lines of the legal commands. -/
theorem assemblerEmitsTheCommandAsWritten : Obligations.AssemblerEmitsTheCommandAsWritten := by
  intro l command
  by_cases refused : l.OutOfRange
  · have stops := assemble_outOfRange refused
    refine ⟨fun w accepted => ?_, fun _ => refused, fun _ => stops⟩
    rw [stops] at accepted; cases accepted
  · obtain ⟨i, legal, rfl⟩ := exists_lineOf command refused
    have emitted := assemble_lineOf legal
    refine ⟨fun w accepted => ⟨i, ?_, rfl⟩, fun stops => ?_, fun h => absurd h refused⟩
    · obtain rfl := Option.some.inj (emitted.symm.trans accepted)
      exact decode_encode legal
    · rw [emitted] at stops; cases stops

section
variable {w : CmdWord}

theorem disassemble_command {i : Instr} (h : decode w = .command i) : disassemble w = (lineOf i, none) := by
  simp only [disassemble, h]

theorem disassemble_fault {f : CmdFault} (h : decode w = .fault f) : disassemble w = (.word w.toNat, some f) := by
  simp only [disassemble, h]

theorem disassembleText_command {i : Instr} (h : decode w = .command i) : disassembleText w = (lineOf i).text := by
  simp only [disassembleText, disassemble_command h]

theorem disassembleText_fault {f : CmdFault} (h : decode w = .fault f) :
    disassembleText w = (AsmLine.word w.toNat).text ++ " ; ".toList ++ faultText f := by
  simp only [disassembleText, disassemble_fault h]

theorem assemble_of_decode {i : Instr} (h : decode w = .command i) : assemble (lineOf i) = some w := by
  obtain ⟨legal, rfl⟩ := decode_command h
  exact assemble_lineOf legal

end

/-- Settles O2: a decoded command is legal and has the word it was decoded from. -/
theorem disassemblyInvertsAssembly : Obligations.DisassemblyInvertsAssembly :=
  fun w => ⟨fun _ h => ⟨disassemble_command h, disassembleText_command h, assemble_of_decode h⟩,
    fun _ h => ⟨disassemble_fault h, disassembleText_fault h, assemble_word w⟩⟩

/-! ## The text of a line (R63, R65) -/

/-- The words that a line's text falls into. -/
def AsmLine.words : AsmLine → List (List Char)
  | .nop => ["NOP".toList]
  | .poll => ["POLL".toList]
  | .ack => ["ACK".toList]
  | .renderSnap => ["RENDER".toList, "SNAP".toList]
  | .renderImm d => ["RENDER".toList, '#' :: Nat.toDigits 10 d]
  | .clear => ["CLEAR".toList]
  | .setpix i r g b =>
    ["SETPIX".toList, Nat.toDigits 10 i, [','], Nat.toDigits 10 r, [','], Nat.toDigits 10 g, [','], Nat.toDigits 10 b]
  | .commit => ["COMMIT".toList]
  | .word w => [".word".toList, '0' :: 'x' :: Nat.toDigits 16 w]

theorem parseWords_words (l : AsmLine) : parseWords l.words = some [l] := by
  cases l with
  | renderImm d => simp [AsmLine.words, parseWords, parseDigit, parseNumber_decimal]
  | setpix i r g b => simp [AsmLine.words, parseWords, parseNumber_decimal]
  | word w => simp [AsmLine.words, parseWords, parseNumber_hex]
  | _ => rfl

/-! A line's text is one line without a comment, and its separators stand between its words. -/

section
variable {base : Nat} (hb : 1 < base) (h16 : base ≤ 16) (n : Nat)
include hb h16

theorem not_mem_toDigits {c : Char} (special : c ∈ [' ', '\t', ',', ';', '\n', '#', 'x']) : c ∉ Nat.toDigits base n := by
  intro hc
  obtain ⟨d, hd, rfl⟩ := mem_toDigits hb h16 n c hc
  exact digitChar_plain hd special

theorem toDigits_no_separator : ∀ c ∈ Nat.toDigits base n, c ∉ [' ', '\t', ','] :=
  fun _ hc separator => not_mem_toDigits hb h16 n (List.mem_append_left [';', '\n', '#', 'x'] separator) hc

end

theorem AsmLine.not_mem_text (l : AsmLine) {c : Char} (special : c = ';' ∨ c = '\n') : c ∉ l.text := by
  have decimal (n : Nat) : c ∉ Nat.toDigits 10 n :=
    not_mem_toDigits (by omega) (by omega) n (by obtain rfl | rfl := special <;> decide)
  have hexadecimal (n : Nat) : c ∉ Nat.toDigits 16 n :=
    not_mem_toDigits (by omega) (by omega) n (by obtain rfl | rfl := special <;> decide)
  cases l with
  | renderImm d => obtain rfl | rfl := special <;> simp [AsmLine.text_renderImm, decimal]
  | setpix i r g b => obtain rfl | rfl := special <;> simp [AsmLine.text_setpix, decimal]
  | word w => obtain rfl | rfl := special <;> simp [AsmLine.text_word, hexadecimal]
  | _ => obtain rfl | rfl := special <;> decide

section
variable {l : List Char} (plain : ∀ c ∈ l, c ∉ [' ', '\t', ',']) (ne : l ≠ [])
include plain ne

theorem lineWords_word_blank (rest : List Char) : lineWords [] (l ++ ' ' :: rest) = l :: lineWords [] rest := by
  rw [lineWords_append plain]
  simp [lineWords, ne]

theorem lineWords_word_comma (rest : List Char) :
    lineWords [] (l ++ ',' :: ' ' :: rest) = l :: [','] :: lineWords [] rest := by
  rw [lineWords_append plain]
  simp [lineWords, ne]

theorem lineWords_word_end {tail : List Char} (blank : tail = [] ∨ tail = [' ']) : lineWords [] (l ++ tail) = [l] := by
  rw [lineWords_append plain]
  obtain rfl | rfl := blank <;> simp [lineWords, ne]

end

theorem lineWords_text (l : AsmLine) {tail : List Char} (blank : tail = [] ∨ tail = [' ']) :
    lineWords [] (l.text ++ tail) = l.words := by
  have decimal := toDigits_no_separator (base := 10) (by omega) (by omega)
  have hexadecimal := toDigits_no_separator (base := 16) (by omega) (by omega)
  have nonempty := toDigits_ne_nil (base := 10) (by omega)
  cases l with
  | renderImm d =>
    have leading (x : List Char) : "RENDER #".toList ++ x = "RENDER".toList ++ ' ' :: '#' :: x := rfl
    have plain : ∀ c ∈ '#' :: Nat.toDigits 10 d, c ∉ [' ', '\t', ','] :=
      List.forall_mem_cons.mpr ⟨by decide, decimal d⟩
    rw [AsmLine.text_renderImm, List.append_assoc, leading, lineWords_word_blank (by simp) (by simp), ← List.cons_append,
      lineWords_word_end plain (List.cons_ne_nil _ _) blank, AsmLine.words]
  | setpix i r g b =>
    have leading (x : List Char) : "SETPIX ".toList ++ x = "SETPIX".toList ++ ' ' :: x := rfl
    have comma (x : List Char) : ", ".toList ++ x = ',' :: ' ' :: x := rfl
    simp only [AsmLine.text_setpix, List.append_assoc]
    simp only [leading, comma]
    rw [lineWords_word_blank (by simp) (by simp), lineWords_word_comma (decimal i) (nonempty i),
      lineWords_word_comma (decimal r) (nonempty r), lineWords_word_comma (decimal g) (nonempty g),
      lineWords_word_end (decimal b) (nonempty b) blank, AsmLine.words]
  | word w =>
    have leading (x : List Char) : ".word 0x".toList ++ x = ".word".toList ++ ' ' :: '0' :: 'x' :: x := rfl
    have plain : ∀ c ∈ '0' :: 'x' :: Nat.toDigits 16 w, c ∉ [' ', '\t', ','] :=
      List.forall_mem_cons.mpr ⟨by decide, List.forall_mem_cons.mpr ⟨by decide, hexadecimal w⟩⟩
    rw [AsmLine.text_word, List.append_assoc, leading, lineWords_word_blank (by simp) (by simp), ← List.cons_append,
      ← List.cons_append, lineWords_word_end plain (List.cons_ne_nil _ _) blank, AsmLine.words]
  | _ => obtain rfl | rfl := blank <;> rfl

/-- A line's text, with a comment or without one, assembles to what the line assembles to. -/
theorem assembleText_text (l : AsmLine) {tail : List Char} (oneLine : '\n' ∉ tail)
    (blank : beforeComment tail = [] ∨ beforeComment tail = [' ']) :
    assembleText (l.text ++ tail) = (assemble l).map ([·]) := by
  have line : textLines [] (l.text ++ tail) = [l.text ++ tail] :=
    textLines_single (List.not_mem_append (l.not_mem_text (.inr rfl)) oneLine) []
  have parsed : parseWords (lineWords [] (beforeComment (l.text ++ tail))) = some [l] := by
    rw [beforeComment_append (l.not_mem_text (.inl rfl)), lineWords_text l blank, parseWords_words]
  rw [assembleText, line]
  cases emitted : assemble l <;> simp [parsed, emitted]

/-- Settles O48: a word's text is the text of a line that assembles to the word, in the case of a fault with a comment. -/
theorem disassembledTextAssemblesToItsWord : Obligations.DisassembledTextAssemblesToItsWord := by
  intro w
  cases h : decode w with
  | command i =>
    rw [disassembleText_command h, ← List.append_nil (lineOf i).text, assembleText_text _ (by simp) (.inl rfl),
      assemble_of_decode h, Option.map_some]
  | fault f =>
    rw [disassembleText_fault h, List.append_assoc, assembleText_text _ (by cases f <;> decide) (.inr rfl),
      assemble_word, Option.map_some]

/-! ## The words that are accepted (R55, R122) -/

variable {s : State} {w : CmdWord} {i : Instr}

theorem commandPath_busy (busy : s.busy = true) (inp : Inputs) :
    commandPath inp s = .next (s.sequencer inp.txReady) := by
  simp only [commandPath, busy, if_true]

/-- An accepted command's word runs the command (R67). -/
theorem commandPath_accepted (accepted : s.acceptedWord = some w) (command : decode w = .command i) :
    commandPath s.input s = exec i s := by
  obtain ⟨valid, free, -, rfl⟩ := State.acceptedWord_some.mp accepted
  simp only [commandPath, free, valid, acceptWord, command, Bool.false_eq_true, if_true, if_false]

/-- The sequencer does not see the listed inputs. -/
theorem State.sequencer_setInputs (s : State) (l : List Inputs) (ready : Bool) :
    (s.setInputs l).sequencer ready = (s.sequencer ready).setInputs l := by
  cases ready with
  | false => rfl
  | true =>
    by_cases last : s.k.val = 74
    · rw [State.sequencer_last s last]
      exact State.sequencer_last (s.setInputs l) last
    · have more : s.k.val < 74 := by omega
      rw [State.sequencer_more s more]
      exact State.sequencer_more (s.setInputs l) more

/-- A cycle with `BUSY` = 1, its inputs listed. -/
theorem step_busy {a : Inputs} (rest : List Inputs) (v : s.cfg.Valid) (noReset : a.rst = false) (legal : s.Legal)
    (busy : s.busy = true) :
    step (s.setInputs (a :: rest)) =
      .next (((s.sequencer a.txReady).setInputs (a :: rest)).buttonPath a).nextCycle := by
  have path : commandPath a (s.setInputs (a :: rest)) = .next ((s.sequencer a.txReady).setInputs (a :: rest)) := by
    rw [commandPath_busy (s := s.setInputs (a :: rest)) busy, State.sequencer_setInputs]
  exact step_run (s := s.setInputs (a :: rest)) v noReset legal path

/-- Settles O21: with `BUSY` = 1 the sequencer acts alone, and a reset leads to the reset state; neither reads the command
port. -/
theorem unacceptedWordHasNoEffect : Obligations.UnacceptedWordHasNoEffect := by
  intro s a rest valid w unaccepted
  let b : Inputs := { a with cmdValid := valid, cmd := w }
  let p := s.setInputs (a :: rest)
  let q := s.setInputs (b :: rest)
  by_cases v : s.cfg.Valid
  · obtain r | r := Bool.eq_false_or_eq_true a.rst
    · exact (step_reset (s := p) v r).trans (step_reset (s := q) v r).symm
    · have busy : s.busy = true := by simpa [r] using unaccepted
      by_cases legal : s.Legal
      · exact (step_busy rest v r legal busy).trans (step_busy (a := b) rest v r legal busy).symm
      · exact (step_unreachable (s := p) v r legal).trans (step_unreachable (s := q) v r legal).symm
  · exact (step_badConfig (s := p) v).trans (step_badConfig (s := q) v).symm

theorem tableWord_command (w : CmdWord) : tableWord 32 w.toNat = some w := by
  rw [tableWord, Nat.mod_eq_of_lt w.isLt, if_pos w.isLt, BitVec.ofNat_toNat, BitVec.setWidth_eq]

/-- Log entry 9: the word that the host offers is accepted. -/
theorem State.acceptedWord_offer (s : State) (w : CmdWord) : (s.offer w).acceptedWord = some w :=
  State.acceptedWord_some.mpr ⟨rfl, rfl, rfl, rfl⟩

/-- Settles O15: an accepted word's command is the command path of its cycle. -/
theorem stepRunsTheAcceptedCommand : Obligations.StepRunsTheAcceptedCommand := by
  refine ⟨fun s t w i valid legal accepted command run => ?_, fun s i => ?_⟩
  · obtain ⟨-, -, noReset, -⟩ := State.acceptedWord_some.mp accepted
    exact step_run valid noReset legal ((commandPath_accepted accepted command).trans run)
  · rw [State.withFetchWord, tableWord_command]
    exact State.acceptedWord_offer s _

end Sys2Proof.Machine
end

