-- ==== Sys2Proof/Proofs/Cycle.lean ====
section
/-! PROOF. The cycle of 40_cycle.md: one step is R67's own, every register at once (Machine/Parallel.lean), and from that
the merges of R70 and R71; and the button path depends on nothing of the other paths (R68). -/

namespace Sys2Proof

/-- A legal command is decoded from its own word alone (R59, R60). -/
theorem decode_eq_command_iff {w : CmdWord} {i : Instr} (legal : i.WellFormed = true) :
    decode w = .command i ↔ w = encode i :=
  ⟨fun command => (decode_command command).2.symm, fun word => word ▸ decode_encode legal⟩

end Sys2Proof

namespace Sys2Proof.Machine

open Sys2Proof

variable {s t : State} {inp : Inputs}

/-! ## The accepted command -/

theorem acceptedOp_busy (busy : s.busy = true) : acceptedOp s inp = none := if_neg (by simp [busy])

theorem acceptedOp_notValid (notValid : inp.cmdValid = false) : acceptedOp s inp = none := if_neg (by simp [notValid])

theorem acceptedOp_valid (free : s.busy = false) (valid : inp.cmdValid = true) :
    acceptedOp s inp = some (decode inp.cmd) := if_pos ⟨valid, free⟩

/-- R67's `op` is the decoded form of the word that R55 accepts. -/
theorem acceptedOp_eq_map (noReset : s.input.rst = false) : acceptedOp s s.input = s.acceptedWord.map decode := by
  unfold acceptedOp State.acceptedWord
  cases s.input.cmdValid <;> cases s.busy <;> simp [noReset]

theorem acceptedOp_eq_command_iff (noReset : s.input.rst = false) {i : Instr} (legal : i.WellFormed = true) :
    acceptedOp s s.input = some (.command i) ↔ s.acceptedWord = some (encode i) := by
  simp [acceptedOp_eq_map noReset, decode_eq_command_iff legal]

/-! ## The command path and the sequencer at once -/

/-- Steps 2 and 3 of R67 alone: `State.parallelStep` without the button path. -/
def State.pathNext (r : State) (op : Option Decoded) (inp : Inputs) : State :=
  { r with
    d := if op = some (.command .ack) ∧ r.ssp = false then false else r.d
    ssp := if op = some (.command .poll) then false else r.ssp
    snapDigit := if op = some (.command .poll) then r.cnt else r.snapDigit
    snapDirty := if op = some (.command .poll) then r.d else r.snapDirty
    busy := (streamNext r op inp.txReady).1
    k := (streamNext r op inp.txReady).2
    err := (faultNext r op).isSome || r.err
    errCode := ((faultNext r op).map CmdFault.code).getD r.errCode
    errCmd := if (faultNext r op).isSome then inp.cmd else r.errCmd
    fb := fbNext r op }

theorem State.setev_pathNext (s : State) (op : Option Decoded) (inp : Inputs) :
    (s.pathNext op inp).setev = s.setev := rfl

/-- The rule's step is its steps 2 and 3, and the button path on what they leave: the button path reads nothing that they
write, but for the flags of the merges. -/
theorem State.parallelStep_eq (s : State) (inp : Inputs) :
    s.parallelStep inp = ((s.pathNext (acceptedOp s inp) inp).buttonPath inp).nextCycle := by
  rw [State.buttonPath_eq, State.setev_pathNext]
  simp [State.parallelStep, State.pathNext, State.nextCycle, setOver]

/-- With `BUSY` = 0 only COMMIT moves the stream. -/
theorem streamNext_free (free : s.busy = false) {op : Option Decoded} (other : op ≠ some (.command .commit))
    (ready : Bool) : streamNext s op ready = (s.busy, s.k) := by
  simp [streamNext, other, free]

theorem State.pathNext_none_busy (busy : s.busy = true) : s.pathNext none inp = s.sequencer inp.txReady := by
  cases ready : inp.txReady with
  | false => simp [State.pathNext, streamNext, faultNext, fbNext, ready, State.sequencer_stalled]
  | true =>
    by_cases last : s.k.val = 74
    · rw [State.sequencer_last s last]
      simp [State.pathNext, streamNext, faultNext, fbNext, ready, busy, last, State.setStream]
    · rw [State.sequencer_more s (by omega)]
      simp [State.pathNext, streamNext, faultNext, fbNext, ready, busy, last, State.setStream]

theorem State.pathNext_none_free (free : s.busy = false) : s.pathNext none inp = s := by
  simp [State.pathNext, streamNext_free free, faultNext, fbNext]

theorem State.pathNext_fault (free : s.busy = false) (f : CmdFault) :
    s.pathNext (some (.fault f)) inp = s.recordFault f inp.cmd := by
  cases first : s.err with
  | false =>
    rw [State.recordFault_first s f inp.cmd first]
    simp [State.pathNext, streamNext_free free, faultNext, fbNext, first, State.setErrRecord]
  | true =>
    rw [State.recordFault_later s f inp.cmd first]
    have kept : faultNext s (some (.fault f)) = none := if_pos first
    simp [State.pathNext, streamNext_free free, kept, fbNext]

/-- A command that writes the frame buffer writes nothing else. -/
theorem State.pathNext_frame (free : s.busy = false) {i : Instr} (frame : writesFrame i = true) :
    s.pathNext (some (.command i)) inp = s.setFb (fbNext s (some (.command i))) := by
  have other : i ≠ .poll ∧ i ≠ .ack ∧ i ≠ .commit := by
    refine ⟨?_, ?_, ?_⟩ <;> rintro rfl <;> cases frame
  simp [State.pathNext, streamNext_free free, faultNext, other, State.setFb]

theorem execRenderImm_eq {dig : BitVec 4} (legal : (Instr.renderImm dig).WellFormed = true) (s : State) :
    execRenderImm dig s = .next (s.setFb (fbNext s (some (.command (.renderImm dig))))) := by
  have digit : dig.toNat < 10 := Nat.lt_succ_of_le (of_decide_eq_true legal)
  have same : Fin.ofNat 10 dig.toNat = ⟨dig.toNat, digit⟩ := Fin.ext (Nat.mod_eq_of_lt digit)
  rw [execRenderImm, dif_pos digit, fbNext, same]

theorem execSetpix_eq {idx : BitVec 5} {red grn blu : Byte} (legal : (Instr.setpix idx red grn blu).WellFormed = true)
    (s : State) :
    execSetpix idx red grn blu s = .next (s.setFb (fbNext s (some (.command (.setpix idx red grn blu))))) := by
  have index : idx.toNat < 25 := Nat.lt_succ_of_le (of_decide_eq_true legal)
  have same : s.fb.set idx.toNat (packPixel red grn blu) = s.fb.setIfInBounds idx.toNat (packPixel red grn blu) :=
    Vector.ext fun _ _ => by rw [Vector.getElem_set, Vector.getElem_setIfInBounds]
  rw [execSetpix, dif_pos index, State.fbWrite, fbNext, same]

/-- The meaning of an accepted command is its share of R67. -/
theorem exec_eq_pathNext (free : s.busy = false) {i : Instr} (legal : i.WellFormed = true) :
    exec i s = .next (s.pathNext (some (.command i)) inp) := by
  cases i with
  | nop => simp [exec, execNop, State.pathNext, streamNext_free free, faultNext, fbNext]
  | poll =>
    simp [exec, execPoll, State.pathNext, streamNext_free free, faultNext, fbNext, State.setSnapshot, State.setHandoff]
  | ack =>
    cases ssp : s.ssp <;>
      simp [exec, execAck, State.pathNext, streamNext_free free, faultNext, fbNext, State.setHandoff, ssp]
  | commit => simp [exec, execCommit, State.pathNext, streamNext, faultNext, fbNext, State.setStream]
  | renderSnap => rw [State.pathNext_frame free rfl]; rfl
  | clear => rw [State.pathNext_frame free rfl]; rfl
  | renderImm dig => rw [State.pathNext_frame free rfl]; exact execRenderImm_eq legal s
  | setpix idx red grn blu => rw [State.pathNext_frame free rfl]; exact execSetpix_eq legal s

theorem acceptWord_eq_pathNext (free : s.busy = false) :
    acceptWord inp.cmd s = .next (s.pathNext (some (decode inp.cmd)) inp) := by
  unfold acceptWord
  cases word : decode inp.cmd with
  | command i => exact exec_eq_pathNext free (decode_command word).1
  | fault f => exact congrArg _ (State.pathNext_fault free f).symm

/-- The command path or the sequencer, whichever acts, is R67's steps 2 and 3. -/
theorem commandPath_eq_pathNext (inp : Inputs) (s : State) :
    commandPath inp s = .next (s.pathNext (acceptedOp s inp) inp) := by
  unfold commandPath
  cases busy : s.busy with
  | true => simp [acceptedOp_busy busy, State.pathNext_none_busy busy]
  | false =>
    cases valid : inp.cmdValid with
    | true => simp [acceptedOp_valid busy valid, acceptWord_eq_pathNext busy]
    | false => simp [acceptedOp_notValid valid, State.pathNext_none_free busy]

/-! ## The step and its merges -/

theorem step_eq_parallelStep (v : s.cfg.Valid) (noReset : s.input.rst = false) (legal : s.Legal) :
    step s = .next (s.parallelStep s.input) := by
  rw [State.parallelStep_eq]
  exact step_run v noReset legal (commandPath_eq_pathNext s.input s)

/-- Settles O16: without reset by `step_eq_parallelStep`. -/
theorem cycleAgreesWithTheRule : Obligations.CycleAgreesWithTheRule := by
  intro s v runs
  cases reset : s.input.rst with
  | true => exact step_reset v reset
  | false => exact step_eq_parallelStep v reset (by simpa [reset] using runs)

theorem eq_parallelStep_of_step (h : step s = .next t) (noReset : s.input.rst = false) : t = s.parallelStep s.input := by
  obtain ⟨v, ⟨reset, -⟩ | ⟨-, legal, -⟩⟩ := step_cases h
  · rw [noReset] at reset; cases reset
  · rw [step_eq_parallelStep v noReset legal] at h
    cases h; rfl

theorem State.parallelStep_d (s : State) (inp : Inputs) :
    (s.parallelStep inp).d =
      if s.setev then true else if acceptedOp s inp = some (.command .ack) ∧ s.ssp = false then false else s.d := by
  simp [State.parallelStep]

theorem State.parallelStep_ssp (s : State) (inp : Inputs) :
    (s.parallelStep inp).ssp =
      if s.setev then true else if acceptedOp s inp = some (.command .poll) then false else s.ssp := by
  simp [State.parallelStep]

/-- Settles O17: R67 has the merge with the decoded word, and ACK has one word. -/
theorem dirtyFlagMerge : Obligations.DirtyFlagMerge := by
  intro s t h noReset
  have word : encode .ack = 0x40000000#32 := rfl
  rw [eq_parallelStep_of_step h noReset, State.parallelStep_d]
  simp only [acceptedOp_eq_command_iff noReset (i := .ack) rfl, word]

/-- Settles O18: R67 has the merge with the decoded word, and POLL has one word. -/
theorem setSincePollMerge : Obligations.SetSincePollMerge := by
  intro s t h noReset
  have word : encode .poll = 0x20000000#32 := rfl
  rw [eq_parallelStep_of_step h noReset, State.parallelStep_ssp]
  simp only [acceptedOp_eq_command_iff noReset (i := .poll) rfl, word]

/-! ## The button path alone (R68) -/

/-- A cycle in which the counter changes has a set event (R79), and leaves `D` set (R70). -/
theorem State.parallelStep_d_of_cnt_ne (changed : (s.parallelStep inp).cnt ≠ s.cnt) : (s.parallelStep inp).d = true := by
  cases event : s.setev with
  | true => simp [State.parallelStep_d, event]
  | false => exact absurd (countNext_quiet _ _ _ event) changed

/-- Settles O22: R67 computes the buttons and the counter from the hypotheses' registers and pins alone. -/
theorem buttonPathIgnoresTheOtherPaths : Obligations.ButtonPathIgnoresTheOtherPaths := by
  intro s s' t t' h h' noReset noReset' cfg inc dec cnt btnN msTick
  obtain rfl := eq_parallelStep_of_step h noReset
  obtain rfl := eq_parallelStep_of_step h' noReset'
  have sameCnt : (s.parallelStep s.input).cnt = (s'.parallelStep s'.input).cnt := by
    simp only [State.parallelStep, cfg, inc, dec, cnt]
  refine ⟨?_, ?_, sameCnt, fun changed => ⟨State.parallelStep_d_of_cnt_ne changed, ?_⟩⟩
  · simp only [State.parallelStep, cfg, inc, btnN, msTick]
  · simp only [State.parallelStep, cfg, dec, btnN, msTick]
  · rw [sameCnt, cnt] at changed
    exact State.parallelStep_d_of_cnt_ne changed

end Sys2Proof.Machine
end

