-- ==== Sys2Proof/Proofs/InputEvents.lean ====
section
/-! PROOF. The button path of 41_input_events.md: what one cycle without reset does to a button (R73, R74, R76, R77), to the
counter and the handoff (R79, R81, R82), and that the lockout timers are REPO's timestamps in every run (R78). -/

namespace Sys2Proof.Machine

open Sys2Proof

variable {s t : State} {b : Button} {c : Config}

/-! ## One button's next registers -/

@[simp] theorem Button.next_sync (b : Button) (c : Config) (sample tick : Bool) :
    (b.next c sample tick).sync = sample :: b.sync.dropLast := rfl

@[simp] theorem Button.next_prev (b : Button) (c : Config) (sample tick : Bool) :
    (b.next c sample tick).prev = b.lvl c := rfl

@[simp] theorem Button.next_age (b : Button) (c : Config) (sample tick : Bool) :
    (b.next c sample tick).age = nextAge c (b.acc c) b.age tick := rfl

theorem Button.fall_iff (b : Button) (c : Config) : b.fall c = true ↔ b.prev = true ∧ b.lvl c = false := by
  simp [Button.fall]

theorem Button.acc_iff_fall (b : Button) (c : Config) :
    b.acc c = true ↔ b.fall c = true ∧ b.age.toNat = ageMax c := by
  rw [Button.acc_iff, Button.fall_iff, and_assoc]

/-- `LVL[b]` is the last stage of a chain of the parameter's length (R13). -/
theorem Button.getElem?_sync_last (legal : b.Legal c) (v : c.Valid) :
    b.sync[c.syncStages - 1]? = some (b.lvl c) := by
  obtain ⟨stages, -⟩ := legal
  obtain ⟨-, -, depth, -⟩ := v
  have inside : c.syncStages - 1 < b.sync.length := by omega
  simp [Button.lvl, inside]

/-- Every stage but the first takes the stage before it (R73). -/
theorem Button.getElem?_sync_next_succ (legal : b.Legal c) {j : Nat} (stage : j + 1 < c.syncStages)
    (sample tick : Bool) : (b.next c sample tick).sync[j + 1]? = b.sync[j]? := by
  obtain ⟨stages, -⟩ := legal
  have inside : j < b.sync.length - 1 := by omega
  simp [inside]

/-- A falling edge leaves `PREV` = 0, so the next cycle has none (R74). -/
theorem Button.fall_next (edge : b.fall c = true) (sample tick : Bool) : (b.next c sample tick).fall c = false := by
  obtain ⟨-, low⟩ := (Button.fall_iff b c).mp edge
  simp [Button.fall, low]

/-- An accepted edge restarts the timer at the tick: `AGE_MAX` is at least 2, so nothing saturates (R76). -/
theorem nextAge_accepted (v : c.Valid) (age : BitVec 8) (tick : Bool) :
    nextAge c true age tick = if tick then 1 else 0 := by
  have lower : 1 ≤ c.debounceMs := v.1
  apply BitVec.eq_of_toNat_eq
  rw [nextAge_toNat _ _ _ _ v]
  cases tick <;> simp [ageMax]

/-! ## Either button in one cycle -/

@[simp] theorem State.parallelStep_inc (s : State) (inp : Inputs) :
    (s.parallelStep inp).inc = s.inc.next s.cfg (inp.btnN.getLsbD 0) inp.msTick := rfl

@[simp] theorem State.parallelStep_dec (s : State) (inp : Inputs) :
    (s.parallelStep inp).dec = s.dec.next s.cfg (inp.btnN.getLsbD 1) inp.msTick := rfl

@[simp] theorem State.parallelStep_cnt (s : State) (inp : Inputs) :
    (s.parallelStep inp).cnt = countNext s.cnt (s.inc.acc s.cfg) (s.dec.acc s.cfg) := rfl

theorem State.Legal.button {reg : State → Button} {n : Nat} (legal : s.Legal) (which : IsButton reg n) :
    (reg s).Legal s.cfg := by
  obtain ⟨inc, dec, -⟩ := legal
  obtain ⟨rfl, -⟩ | ⟨rfl, -⟩ := which
  · exact inc
  · exact dec

theorem valid_and_legal_of_step (h : step s = .next t) (noReset : s.input.rst = false) : s.cfg.Valid ∧ s.Legal := by
  obtain ⟨v, ⟨reset, -⟩ | ⟨-, legal, -⟩⟩ := step_cases h
  · rw [noReset] at reset; cases reset
  · exact ⟨v, legal⟩

theorem eq_afterReset_of_step (h : step s = .next t) (reset : s.input.rst = true) : t = s.afterReset.nextCycle := by
  obtain ⟨-, ⟨-, reached⟩ | ⟨noReset, -⟩⟩ := step_cases h
  · exact reached
  · rw [reset] at noReset; cases noReset

theorem step_button {reg : State → Button} {n : Nat} (which : IsButton reg n) (h : step s = .next t)
    (noReset : s.input.rst = false) : reg t = (reg s).next s.cfg (s.input.btnN.getLsbD n) s.input.msTick := by
  obtain rfl := eq_parallelStep_of_step h noReset
  obtain ⟨rfl, rfl⟩ | ⟨rfl, rfl⟩ := which
  · exact State.parallelStep_inc s s.input
  · exact State.parallelStep_dec s s.input

/-- Settles O31: a chain of legal length shifts, and a falling edge leaves `PREV` = 0. -/
theorem synchroniserAndEdges : Obligations.SynchroniserAndEdges := by
  intro reg n s t which h noReset
  obtain ⟨v, legal⟩ := valid_and_legal_of_step h noReset
  have legal := legal.button which
  have next := step_button which h noReset
  rw [next, step_cfg h]
  exact ⟨rfl, fun _ stage => Button.getElem?_sync_next_succ legal stage _ _, (Button.next_legal legal v _ _).1,
    Button.getElem?_sync_last legal v, rfl, Button.fall_iff _ _, fun edge => Button.fall_next edge _ _⟩

/-- R67 has the tick in the two timers alone. -/
theorem State.parallelStep_msTick (s : State) (a : Inputs) (rest : List Inputs) :
    let on : Inputs := { a with msTick := true }
    let off : Inputs := { a with msTick := false }
    let t := (s.setInputs (on :: rest)).parallelStep on
    let t' := (s.setInputs (off :: rest)).parallelStep off
    t' = { t with inc := { t.inc with age := t'.inc.age }, dec := { t.dec with age := t'.dec.age } } := rfl

/-- Settles O32: the timer on numbers by `nextAge_toNat`; two cycles apart in the tick alone are both resets, or R67's. -/
theorem lockoutTimerUpdate : Obligations.LockoutTimerUpdate := by
  refine ⟨fun reg n s t which h noReset => ?_, fun s t t' a rest h h' => ?_⟩
  · obtain ⟨v, -⟩ := valid_and_legal_of_step h noReset
    rw [step_button which h noReset]
    exact nextAge_toNat _ _ _ _ v
  · cases reset : a.rst with
    | true =>
      obtain rfl := eq_afterReset_of_step h reset
      obtain rfl := eq_afterReset_of_step h' reset
      rfl
    | false =>
      obtain rfl := eq_parallelStep_of_step h reset
      obtain rfl := eq_parallelStep_of_step h' reset
      exact State.parallelStep_msTick s a rest

/-- Settles O33: in a legal state `AGE` is at most `AGE_MAX` = `DEBOUNCE_MS` + 1, so only that value is past the lockout. -/
theorem acceptanceIsStrict : Obligations.AcceptanceIsStrict := by
  intro reg n s which legal
  obtain ⟨-, saturated⟩ := legal.button which
  have acc := Button.acc_iff_fall (reg s) s.cfg
  unfold ageMax at acc saturated
  refine ⟨acc, acc.trans (and_congr_right fun _ => ?_), fun running => Bool.eq_false_iff.mpr fun accepted => ?_⟩
  · omega
  · have := (acc.mp accepted).2
    omega

/-! ## The counter and the handoff -/

theorem countNext_val (c : Fin 10) (inc dec : Bool) :
    (countNext c inc dec).val =
      if dec = true ∧ 0 < (incStep c inc).1.val then (incStep c inc).1.val - 1 else (incStep c inc).1.val :=
  decStep_val _ _

theorem setEvent_iff (c : Fin 10) (inc dec : Bool) :
    setEvent c inc dec = true ↔ (inc = true ∧ c.val < 9) ∨ (dec = true ∧ 0 < (incStep c inc).1.val) := by
  simp only [setEvent, incStep_changed, decStep_changed, Bool.or_eq_true, decide_eq_true_eq]

/-- Settles O34: `c1` is the counter after `IncStep`, and the set event has the last word on `D` and `SSP` in R67. -/
theorem counterTransition : Obligations.CounterTransition := by
  intro s t h noReset
  obtain rfl := eq_parallelStep_of_step h noReset
  refine ⟨(incStep s.cnt (s.inc.acc s.cfg)).1.val, incStep_val _ _, countNext_val _ _ _, setEvent_iff _ _ _,
    fun event => ?_⟩
  simp [State.parallelStep_d, State.parallelStep_ssp, event]

/-- Without an accepted word only a set event writes `D` and `SSP` (R70, R71). -/
theorem State.parallelStep_handoff_of_no_word (noReset : s.input.rst = false) (noWord : s.acceptedWord = none) :
    (s.parallelStep s.input).d = (s.setev || s.d) ∧ (s.parallelStep s.input).ssp = (s.setev || s.ssp) := by
  have noOp : acceptedOp s s.input = none := by rw [acceptedOp_eq_map noReset, noWord]; rfl
  simp [State.parallelStep_d, State.parallelStep_ssp, noOp]

/-- INC_EDGE alone (R81). -/
theorem incEdge_alone (c : Fin 10) :
    (c.val < 9 → (countNext c true false).val = c.val + 1 ∧ setEvent c true false = true) ∧
    (c.val = 9 → countNext c true false = c ∧ setEvent c true false = false) := by
  revert c; decide

/-- DEC_EDGE alone (R82). -/
theorem decEdge_alone (c : Fin 10) :
    (0 < c.val → (countNext c false true).val = c.val - 1 ∧ setEvent c false true = true) ∧
    (c.val = 0 → countNext c false true = c ∧ setEvent c false true = false) := by
  revert c; decide

/-- Settles O35: R67's cycle, with the counter's part by `incEdge_alone` and `decEdge_alone`. -/
theorem acceptedEdgeEvents : Obligations.AcceptedEdgeEvents := by
  intro s v legal noReset noWord
  have run := step_eq_parallelStep v noReset legal
  obtain ⟨d, ssp⟩ := State.parallelStep_handoff_of_no_word noReset noWord
  have event : s.setev = setEvent s.cnt (s.inc.acc s.cfg) (s.dec.acc s.cfg) := rfl
  refine ⟨fun inc dec => ⟨_, run, ?_, ?_⟩, fun inc dec => ⟨_, run, ?_, ?_⟩⟩
  · rw [State.parallelStep_inc, Button.next_age, inc]
    exact nextAge_accepted v _ _
  · obtain ⟨moves, stays⟩ := incEdge_alone s.cnt
    rw [State.parallelStep_cnt, d, ssp, event, inc, dec]
    exact ⟨fun below => by simp [moves below], fun bound => by simp [stays bound]⟩
  · rw [State.parallelStep_dec, Button.next_age, dec]
    exact nextAge_accepted v _ _
  · obtain ⟨moves, stays⟩ := decEdge_alone s.cnt
    rw [State.parallelStep_cnt, d, ssp, event, inc, dec]
    exact ⟨fun above => by simp [moves above], fun bound => by simp [stays bound]⟩

/-! ## One button's timer and its timestamp (R78) -/

theorem Stamp.agrees_none {now : Nat} :
    Stamp.Agrees { now := now, last := none } c b ↔ b.age.toNat = ageMax c := by
  simp [Stamp.Agrees, Stamp.age]

theorem Stamp.agrees_some {now a : Nat} :
    Stamp.Agrees { now := now, last := some a } c b ↔ b.age.toNat = min (ageMax c) (now - a) ∧ a ≤ now := by
  simp [Stamp.Agrees, Stamp.age]

theorem Stamp.fresh_agrees (v : c.Valid) : Stamp.fresh.Agrees c (Button.afterReset c) :=
  Stamp.agrees_none.mpr (Button.afterReset_age v)

theorem Stamp.next_accepted (now : Nat) (last : Option Nat) (tick : Bool) :
    Stamp.next { now := now, last := last } true tick = { now := now + (if tick then 1 else 0), last := some now } := rfl

theorem Stamp.next_quiet (now : Nat) (last : Option Nat) (tick : Bool) :
    Stamp.next { now := now, last := last } false tick = { now := now + (if tick then 1 else 0), last := last } := rfl

/-- An accepted edge restarts the timer and stores the clock; otherwise timer and clock go on together, the timer up to
`AGE_MAX`. -/
theorem Stamp.Agrees.next {st : Stamp} (agrees : st.Agrees c b) (v : c.Valid) (sample tick : Bool) :
    (st.next (b.acc c) tick).Agrees c (b.next c sample tick) := by
  have age := nextAge_toNat c (b.acc c) b.age tick v
  rw [← Button.next_age b c sample tick] at age
  obtain ⟨now, last⟩ := st
  cases acc : b.acc c with
  | true =>
    rw [Stamp.next_accepted, Stamp.agrees_some, age, acc, if_pos rfl]
    omega
  | false =>
    rw [acc, if_neg Bool.false_ne_true] at age
    rw [Stamp.next_quiet]
    cases last with
    | none =>
      rw [Stamp.agrees_none, age, Stamp.agrees_none.mp agrees]
      omega
    | some a =>
      obtain ⟨timer, past⟩ := Stamp.agrees_some.mp agrees
      rw [Stamp.agrees_some, age, timer]
      omega

/-- The timer has run out exactly when REPO's rule is ready for an edge. -/
theorem Stamp.Agrees.ready_iff {st : Stamp} (agrees : st.Agrees c b) :
    st.ready c.debounceMs = true ↔ b.age.toNat = ageMax c := by
  obtain ⟨now, _ | a⟩ := st
  · simp [Stamp.ready, Stamp.agrees_none.mp agrees]
  · obtain ⟨timer, -⟩ := Stamp.agrees_some.mp agrees
    simp only [Stamp.ready, decide_eq_true_eq, timer, ageMax]
    omega

theorem Stamp.Agrees.acc_iff {st : Stamp} (agrees : st.Agrees c b) :
    b.acc c = true ↔ b.fall c = true ∧ st.ready c.debounceMs = true := by
  rw [agrees.ready_iff, Button.acc_iff_fall]

/-! ## DMC with the timestamps beside it -/

variable {x y : Tracked}

/-- Every way both can go on: DMC's step, with the timestamps restarted by a reset or kept up without one. -/
theorem Tracked.step_cases (h : x.step = some y) :
    Machine.step x.dmc = .next y.dmc ∧
      ((x.dmc.input.rst = true ∧ y.inc = Stamp.fresh ∧ y.dec = Stamp.fresh) ∨
        (x.dmc.input.rst = false ∧ y.inc = x.inc.next (x.dmc.inc.acc x.dmc.cfg) x.dmc.input.msTick ∧
          y.dec = x.dec.next (x.dmc.dec.acc x.dmc.cfg) x.dmc.input.msTick)) := by
  unfold Tracked.step at h
  cases e : Machine.step x.dmc with
  | next s =>
    cases r : x.dmc.input.rst with
    | true =>
      simp only [e, r, if_true] at h
      cases h
      exact ⟨rfl, .inl ⟨rfl, rfl, rfl⟩⟩
    | false =>
      simp only [e, r, Bool.false_eq_true, if_false] at h
      cases h
      exact ⟨rfl, .inr ⟨rfl, rfl, rfl⟩⟩
  | fault r => rw [e] at h; cases h
  | refused r => rw [e] at h; cases h

theorem Tracked.step_total (good : x.dmc.Good) : ∃ y, x.step = some y := by
  obtain ⟨s, h⟩ := Machine.step_total good.1.1 (.inr good.legal)
  unfold Tracked.step
  rw [h]
  cases x.dmc.input.rst <;> exact ⟨_, rfl⟩

theorem Tracked.afterReset_agrees (v : s.cfg.Valid) :
    Tracked.Agrees { dmc := s.afterReset, inc := Stamp.fresh, dec := Stamp.fresh } :=
  ⟨State.afterReset_good v, Stamp.fresh_agrees v, Stamp.fresh_agrees v⟩

theorem Tracked.step_agrees (agrees : x.Agrees) (h : x.step = some y) : y.Agrees := by
  obtain ⟨good, inc, dec⟩ := agrees
  have v : x.dmc.cfg.Valid := good.1.1
  obtain ⟨run, ⟨reset, incStamp, decStamp⟩ | ⟨noReset, incStamp, decStamp⟩⟩ := Tracked.step_cases h
  all_goals
    refine ⟨step_good good run, ?_⟩
    rw [incStamp, decStamp, step_cfg run]
  · rw [eq_afterReset_of_step run reset]
    exact ⟨Stamp.fresh_agrees v, Stamp.fresh_agrees v⟩
  · rw [step_button (.inl ⟨rfl, rfl⟩) run noReset, step_button (.inr ⟨rfl, rfl⟩) run noReset]
    exact ⟨inc.next v _ _, dec.next v _ _⟩

/-- From where the timestamps agree both run on for ever, in agreement. -/
theorem Tracked.run_agrees (n : Nat) (agrees : x.Agrees) :
    ∃ y, Tracked.run n x = some y ∧ y.Agrees ∧ y.dmc.cfg = x.dmc.cfg := by
  induction n generalizing x with
  | zero => exact ⟨x, rfl, agrees, rfl⟩
  | succ n ih =>
    obtain ⟨u, h⟩ := Tracked.step_total agrees.1
    obtain ⟨y, run, agreesY, cfg⟩ := ih (Tracked.step_agrees agrees h)
    refine ⟨y, ?_, agreesY, cfg.trans (step_cfg (Tracked.step_cases h).1)⟩
    simpa only [Tracked.run, h] using run

/-- Settles O49: the step by `Tracked.step_agrees`, the acceptance button by button. -/
theorem timestampsStayInAgreement : Obligations.TimestampsStayInAgreement :=
  ⟨fun _ _ => Tracked.step_agrees, fun _ ⟨_, inc, dec⟩ => ⟨inc.acc_iff, dec.acc_iff⟩⟩

/-- Settles O50: the reset state's timers hold `AGE_MAX`, and a good state is never refused. -/
theorem timestampsStartInAgreement : Obligations.TimestampsStartInAgreement :=
  ⟨fun _ => Tracked.afterReset_agrees, fun _ agrees => Tracked.step_total agrees.1⟩

/-- Settles O36: `Tracked.run_agrees` from the reset state. -/
theorem debouncerMatchesTimestamps : Obligations.DebouncerMatchesTimestamps := by
  intro n s v
  obtain ⟨x, run, ⟨-, inc, dec⟩, cfg⟩ := Tracked.run_agrees n (Tracked.afterReset_agrees v)
  obtain cfg : x.dmc.cfg = s.cfg := cfg
  rw [cfg] at inc dec
  exact ⟨x, run, inc.1, dec.1, inc.acc_iff, dec.acc_iff⟩

end Sys2Proof.Machine
end

