-- ==== Sys2Proof/Proofs/Handoff.lean ====
section
/-! PROOF. The handoff of 42_handoff.md: NOP, POLL and ACK on their own and in their cycles (R83 to R85), that the
reference host keeps the frame current (R87), and that no update is lost between a POLL and the ACK that closes it (R86).
-/

namespace Sys2Proof

/-- A format Z word of an opcode is that opcode's command or has a reserved bit set (R57). -/
theorem decode_eq_reservedBits_of_ne {i : Instr} {w : CmdWord} (format : decode w = decodeZ i w)
    (other : w ≠ encode i) : decode w = .fault .reservedBits := by
  obtain ⟨-, e⟩ | ⟨-, e⟩ := decodeZ_cases i w
  · exact format.trans e
  · exact absurd (decode_command (format.trans e)).2.symm other

end Sys2Proof

namespace Sys2Proof.Machine

open Sys2Proof

variable {s t u : State}

/-! ## The commands on their own (R83 to R85) -/

theorem ackDirty_eq_and (ssp d : Bool) : ackDirty ssp d = (d && ssp) := by cases ssp <;> simp

/-- Settles O23: each meaning is one write of the registers named, and ACK's share of the merge is a conjunction. -/
theorem handoffCommandsComplete : Obligations.HandoffCommandsComplete := by
  intro s
  refine ⟨rfl, rfl, ?_⟩
  rw [← ackDirty_eq_and]
  rfl

/-! ## The cycle of an accepted command -/

section
variable {w : CmdWord} (accepted : s.acceptedWord = some w)
include accepted

theorem State.noReset_of_accepted : s.input.rst = false := by
  obtain ⟨-, -, noReset, -⟩ := State.acceptedWord_some.mp accepted
  exact noReset

theorem State.free_of_accepted : s.busy = false := by
  obtain ⟨-, free, -, -⟩ := State.acceptedWord_some.mp accepted
  exact free

end

theorem State.acceptedWord_busy (busy : s.busy = true) : s.acceptedWord = none := by
  simp [State.acceptedWord, busy]

/-- A cycle that accepts a legal command's word: the command's effect, and the button path with it (R67). -/
theorem eq_of_step_accepted {i : Instr} (h : step s = .next t) (accepted : s.acceptedWord = some (encode i))
    (legal : i.WellFormed = true) (run : exec i s = .next u) : t = (u.buttonPath s.input).nextCycle := by
  obtain ⟨v, reachable⟩ := valid_and_legal_of_step h (State.noReset_of_accepted accepted)
  rw [stepRunsTheAcceptedCommand.1 s u _ i v reachable accepted (decode_encode legal) run] at h
  cases h; rfl

theorem step_poll (h : step s = .next t) (accepted : s.acceptedWord = some (encode .poll)) :
    t.snapDigit = s.cnt ∧ t.snapDirty = s.d ∧ t.ssp = s.setev ∧ t.d = (s.setev || s.d) ∧ t.fb = s.fb ∧
      t.busy = false ∧ t.k = s.k ∧ t.err = s.err ∧ t.errCode = s.errCode ∧ t.errCmd = s.errCmd := by
  obtain rfl := eq_of_step_accepted h accepted rfl rfl
  simp [setOver_eq_or, State.free_of_accepted accepted]

theorem step_ack (h : step s = .next t) (accepted : s.acceptedWord = some (encode .ack)) :
    t.d = (s.setev || (s.d && s.ssp)) ∧ t.ssp = (s.setev || s.ssp) ∧ t.snapDigit = s.snapDigit ∧
      t.snapDirty = s.snapDirty ∧ t.fb = s.fb ∧ t.busy = false ∧ t.k = s.k ∧ t.err = s.err ∧
      t.errCode = s.errCode ∧ t.errCmd = s.errCmd := by
  obtain rfl := eq_of_step_accepted h accepted rfl rfl
  simp [setOver_eq_or, ackDirty_eq_and, State.free_of_accepted accepted]

/-- An ACK that takes `D` from 1 to 0 finds and leaves `SSP` = 0, in a cycle without set event (R70, R85). -/
theorem ssp_clear_of_ack (h : step s = .next t) (accepted : s.acceptedWord = some (encode .ack)) (dirty : s.d = true)
    (clean : t.d = false) : s.setev = false ∧ s.ssp = false ∧ t.ssp = false := by
  obtain ⟨d, ssp, -⟩ := step_ack h accepted
  obtain ⟨quiet, clear⟩ : s.setev = false ∧ s.ssp = false := by simpa [d, dirty] using clean
  exact ⟨quiet, clear, by simp [ssp, quiet, clear]⟩

theorem step_renderSnap (h : step s = .next t) (accepted : s.acceptedWord = some (encode .renderSnap)) :
    t.fb = image s.rom s.snapDigit ∧ t.snapDigit = s.snapDigit ∧ t.d = (s.setev || s.d) ∧ t.busy = false := by
  obtain rfl := eq_of_step_accepted h accepted rfl rfl
  simp [setOver_eq_or, State.free_of_accepted accepted]

theorem step_commit (h : step s = .next t) (accepted : s.acceptedWord = some (encode .commit)) :
    t.busy = true ∧ t.k = 0 ∧ t.fb = s.fb ∧ t.snapDigit = s.snapDigit ∧ t.d = (s.setev || s.d) := by
  obtain rfl := eq_of_step_accepted h accepted rfl rfl
  simp [setOver_eq_or]

/-- Settles O28: POLL's cycle by `step_poll`, its encoding by the decoder's format Z. -/
theorem pollTakesAnUntornSnapshot : Obligations.PollTakesAnUntornSnapshot := by
  refine ⟨decode_encode (i := .poll) rfl, fun w op other => decode_eq_reservedBits_of_ne (decode_op1 op) other,
    fun s v reachable accepted => ?_⟩
  obtain ⟨t, h⟩ := step_total v (.inr reachable)
  exact ⟨t, h, step_poll h accepted⟩

/-- Settles O29: ACK's cycle by `step_ack`, its encoding by the decoder's format Z. -/
theorem ackClearsOnlyTheSameGeneration : Obligations.AckClearsOnlyTheSameGeneration := by
  refine ⟨decode_encode (i := .ack) rfl, fun w op other => decode_eq_reservedBits_of_ne (decode_op2 op) other,
    fun s busy => by simp [State.acceptedWord_busy busy], fun s v reachable accepted => ?_⟩
  obtain ⟨t, h⟩ := step_total v (.inr reachable)
  exact ⟨t, h, step_ack h accepted⟩

/-! ## What a cycle leaves -/

/-- No cycle writes the glyph ROM, not even a reset (R31). -/
theorem step_rom (h : step s = .next t) : t.rom = s.rom := by
  cases reset : s.input.rst with
  | true => rw [eq_afterReset_of_step h reset]; rfl
  | false => rw [eq_parallelStep_of_step h reset]; rfl

/-- A cycle that leaves `D` clear has left the counter alone (R79). -/
theorem step_cnt_of_clean (h : step s = .next t) (noReset : s.input.rst = false) (clean : t.d = false) :
    t.cnt = s.cnt := by
  obtain rfl := eq_parallelStep_of_step h noReset
  by_contra changed
  rw [State.parallelStep_d_of_cnt_ne changed] at clean
  cases clean

theorem step_snapDigit (h : step s = .next t) (noReset : s.input.rst = false)
    (noPoll : s.acceptedWord ≠ some 0x20000000#32) : t.snapDigit = s.snapDigit := by
  obtain ⟨-, -, -, -, -, snap, -⟩ := onlyTheListedWritersWrite s t h noReset
  by_contra changed
  exact noPoll (snap (.inl changed))

/-- Without a command that writes it, the frame buffer stays. -/
theorem step_fb (h : step s = .next t) (noReset : s.input.rst = false)
    (noWrite : ∀ w i, s.acceptedWord = some w → decode w = .command i → writesFrame i = false) : t.fb = s.fb := by
  obtain ⟨-, -, -, -, -, -, fb, -⟩ := onlyTheListedWritersWrite s t h noReset
  by_contra changed
  obtain ⟨w, i, accepted, command, writes⟩ := fb changed
  rw [noWrite w i accepted command] at writes
  cases writes

/-- The stream does not touch what it sends, nor the handoff but for a set event (R98, R101). -/
theorem step_busy_frame (h : step s = .next t) (noReset : s.input.rst = false) (busy : s.busy = true) :
    t.fb = s.fb ∧ t.snapDigit = s.snapDigit ∧ t.d = (s.setev || s.d) := by
  have noWord := State.acceptedWord_busy busy
  refine ⟨step_fb h noReset (by simp [noWord]), step_snapDigit h noReset (by simp [noWord]), ?_⟩
  rw [eq_parallelStep_of_step h noReset]
  exact (State.parallelStep_handoff_of_no_word noReset noWord).1

/-! ## The reference host keeps the frame current (R86, R87) -/

namespace Closed

variable {host : HostPhase} {c c' : Closed}

/-- A cycle of both is a cycle of DMC with the host's word on its command port. -/
theorem step_cases (h : c.step = some c') : Machine.step c.driven = .next c'.dmc ∧ c'.host = c.hostNext := by
  unfold Closed.step at h
  cases e : Machine.step c.driven with
  | next s => rw [e] at h; cases h; exact ⟨rfl, rfl⟩
  | fault r => cases r
  | refused r => rw [e] at h; cases h

/-- `Closed.Sound` says nothing of the inputs. -/
theorem Sound.driven (sound : c.Sound) : Sound { host := c.host, dmc := c.driven } := sound

/-- In a free cycle without reset DMC accepts the word that the host offers. -/
theorem acceptedWord_driven (free : c.dmc.busy = false) (noReset : c.dmc.input.rst = false) :
    c.driven.acceptedWord = some (encode (c.host.offers (statusWord c.driven))) :=
  State.acceptedWord_some.mpr ⟨rfl, free, noReset, rfl⟩

theorem sound_afterReset (v : s.cfg.Valid) : Sound { host := .poll, dmc := s.afterReset.nextCycle } :=
  ⟨State.afterReset_good v, by simp, by simp, by simp, by simp⟩

/-- Between its RENDER SNAP and its ACK the host finds the snapshot drawn and `D` = 1, and the clause about `D` = 0 has
nothing to say. -/
theorem sound_of_drawn (good : t.Good) (free : host ≠ .ack → t.busy = false) (rendered : host ≠ .look)
    (frame : t.fb = image t.rom t.snapDigit) (dirty : t.d = true) : Sound { host := host, dmc := t } :=
  ⟨good, free, fun _ => ⟨frame, dirty⟩, fun look => absurd look rendered, fun clean => by simp [dirty] at clean⟩

/-! Each cycle that the reference loop can have. -/

/-- With a commit in progress the host waits with its ACK. -/
theorem Sound.stream (sound : Sound { host := host, dmc := s }) (h : Machine.step s = .next t)
    (noReset : s.input.rst = false) (busy : s.busy = true) : Sound { host := host, dmc := t } := by
  obtain ⟨good, free, drawn, -, -⟩ := sound
  obtain rfl : host = .ack := by
    by_contra other
    exact absurd (free other) (by simp [busy])
  obtain ⟨frame, dirty⟩ := drawn (.inr rfl)
  obtain ⟨fb, digit, d⟩ := step_busy_frame h noReset busy
  exact sound_of_drawn (step_good good h) (absurd rfl) (by simp) (by rw [fb, step_rom h, digit]; exact frame)
    (by rw [d, dirty]; exact Bool.or_true _)

/-- POLL captures `D`, so a snapshot that is dirty says that `D` is set. -/
theorem Sound.poll (sound : Sound { host := host, dmc := s }) (h : Machine.step s = .next t)
    (accepted : s.acceptedWord = some (encode .poll)) : Sound { host := .look, dmc := t } := by
  obtain ⟨good, -, -, -, current⟩ := sound
  obtain ⟨-, captured, -, d, fb, free, -⟩ := step_poll h accepted
  refine ⟨step_good good h, fun _ => free, by simp, fun _ dirty => by simp [d, captured.symm.trans dirty],
    fun clean => ?_⟩
  have cnt := step_cnt_of_clean h (State.noReset_of_accepted accepted) clean
  obtain ⟨-, cleanBefore⟩ := Bool.or_eq_false_iff.mp (d.symm.trans clean)
  rw [fb, step_rom h, cnt]
  exact current cleanBefore

/-- RENDER SNAP draws the snapshot's digit. -/
theorem Sound.renderSnap (sound : Sound { host := .look, dmc := s }) (h : Machine.step s = .next t)
    (captured : s.snapDirty = true) (accepted : s.acceptedWord = some (encode .renderSnap)) :
    Sound { host := .commit, dmc := t } := by
  obtain ⟨good, -, -, looked, -⟩ := sound
  have dirty : s.d = true := looked rfl captured
  obtain ⟨fb, digit, d, free⟩ := step_renderSnap h accepted
  exact sound_of_drawn (step_good good h) (fun _ => free) (by simp) (by rw [fb, step_rom h, digit])
    (by rw [d, dirty]; exact Bool.or_true _)

theorem Sound.commit (sound : Sound { host := .commit, dmc := s }) (h : Machine.step s = .next t)
    (accepted : s.acceptedWord = some (encode .commit)) : Sound { host := .ack, dmc := t } := by
  obtain ⟨good, -, drawn, -, -⟩ := sound
  obtain ⟨frame, dirty⟩ := drawn (.inl rfl)
  obtain ⟨-, -, fb, digit, d⟩ := step_commit h accepted
  exact sound_of_drawn (step_good good h) (absurd rfl) (by simp) (by rw [fb, step_rom h, digit]; exact frame)
    (by rw [d, dirty]; exact Bool.or_true _)

/-- An ACK that clears `D` finds `SSP` = 0, so the snapshot in the frame buffer is the counter (R86). -/
theorem Sound.ack (sound : Sound { host := .ack, dmc := s }) (h : Machine.step s = .next t)
    (accepted : s.acceptedWord = some (encode .ack)) : Sound { host := .poll, dmc := t } := by
  obtain ⟨good, -, drawn, -, -⟩ := sound
  obtain ⟨frame, dirty⟩ := drawn (.inr rfl)
  obtain ⟨-, -, -, -, fb, free, -⟩ := step_ack h accepted
  refine ⟨step_good good h, fun _ => free, by simp, by simp, fun clean => ?_⟩
  have cnt := step_cnt_of_clean h (State.noReset_of_accepted accepted) clean
  obtain ⟨-, ssp, -⟩ := ssp_clear_of_ack h accepted dirty clean
  have fresh : s.snapDigit = s.cnt := (good.2 ssp).1
  rw [fb, step_rom h, cnt, ← fresh]
  exact frame

/-- A cycle that accepts the host's word takes the host one step on in its loop. -/
theorem Sound.accepted (sound : Sound { host := host, dmc := s }) (h : Machine.step s = .next t)
    (accepted : s.acceptedWord = some (encode (host.offers (statusWord s)))) :
    Sound { host := host.after (statusWord s), dmc := t } := by
  cases host with
  | poll => exact sound.poll h accepted
  | look =>
    rw [HostPhase.offers, statusWord_snapDirty] at accepted
    rw [HostPhase.after, statusWord_snapDirty]
    cases captured : s.snapDirty with
    | true => exact sound.renderSnap h captured (by simpa [captured] using accepted)
    | false => exact sound.poll h (by simpa [captured] using accepted)
  | commit => exact sound.commit h accepted
  | ack => exact sound.ack h accepted

end Closed

/-- Settles O45: a cycle of the closed loop is a reset, a cycle of the stream, or one that accepts the host's word. -/
theorem referenceHostKeepsTheFrameCurrent : Obligations.ReferenceHostKeepsTheFrameCurrent := by
  intro c ⟨host', t⟩ sound hc
  obtain ⟨h, next⟩ := Closed.step_cases hc
  obtain rfl : host' = c.hostNext := next
  unfold Closed.hostNext
  cases reset : c.dmc.input.rst with
  | true =>
    obtain rfl := eq_afterReset_of_step h reset
    obtain ⟨⟨⟨v, -⟩, -⟩, -⟩ := sound
    exact Closed.sound_afterReset v
  | false =>
    cases busy : c.dmc.busy with
    | true => exact sound.driven.stream h reset busy
    | false => exact sound.driven.accepted h (Closed.acceptedWord_driven busy reset)

/-! ## Along a run -/

/-- The last cycle of a run that answers a next state. -/
theorem State.run_last {n : Nat} (h : State.run (n + 1) s = .next t) :
    ∃ u, State.run n s = .next u ∧ step u = .next t := by
  induction n generalizing s with
  | zero =>
    obtain ⟨u, first, rest⟩ := State.run_succ_cases h
    cases rest
    exact ⟨s, rfl, first⟩
  | succ n ih =>
    obtain ⟨u, first, rest⟩ := State.run_succ_cases h
    obtain ⟨w, run, last⟩ := ih rest
    exact ⟨w, (State.run_next n first).trans run, last⟩

variable {s0 x y : State} {m n r c : Nat}

theorem State.run_inj (h : State.run n s0 = .next s) (h' : State.run n s0 = .next t) : s = t := by
  rw [h] at h'; cases h'; rfl

/-- The cycle that a run goes on with. -/
theorem step_of_run_succ (h : State.run n s0 = .next s) (h' : State.run (n + 1) s0 = .next t) : step s = .next t := by
  obtain ⟨u, before, last⟩ := State.run_last h'
  rwa [State.run_inj h before]

/-- What holds in cycle `m` of a run, and is kept by each cycle from there to cycle `n`, holds in cycle `n`. -/
theorem State.run_keeps {P : Nat → State → Prop} (le : m ≤ n) (start : ∀ v, State.run m s0 = .next v → P m v)
    (keeps : ∀ j v w, m ≤ j → j < n → State.run j s0 = .next v → step v = .next w → P j v → P (j + 1) w)
    (run : State.run n s0 = .next s) : P n s := by
  induction le generalizing s with
  | refl => exact start s run
  | @step n le ih =>
    obtain ⟨u, before, last⟩ := State.run_last run
    exact keeps n u s le (Nat.lt_succ_self n) before last
      (ih (fun j v w mj jn => keeps j v w mj (Nat.lt_succ_of_lt jn)) before)

theorem State.Good.run (good : s0.Good) (run : State.run n s0 = .next s) : s.Good :=
  State.run_keeps (P := fun _ v => v.Good) (Nat.zero_le n) (fun _ start => by cases start; exact good)
    (fun _ _ _ _ _ _ h before => step_good before h) run

/-! ## From the POLL to the ACK -/

/-- Cycle `m` of the run accepts a POLL, and from it up to cycle `n`, cycle `n` itself left out, there is no set event,
no reset and no other POLL. -/
def QuietSincePoll (s0 : State) (m n : Nat) : Prop :=
  (∃ u, State.run m s0 = .next u ∧ u.acceptedWord = some 0x20000000#32) ∧
    ∀ j v, m ≤ j → j < n → State.run j s0 = .next v →
      v.setev = false ∧ v.input.rst = false ∧ (m < j → v.acceptedWord ≠ some 0x20000000#32)

theorem QuietSincePoll.start (run : State.run n s0 = .next s) (event : s.setev = false)
    (accepted : s.acceptedWord = some 0x20000000#32) : QuietSincePoll s0 n (n + 1) := by
  refine ⟨⟨s, run, accepted⟩, fun j v nj jn at_j => ?_⟩
  obtain rfl : n = j := by omega
  obtain rfl := State.run_inj run at_j
  exact ⟨event, State.noReset_of_accepted accepted, fun later => absurd later (Nat.lt_irrefl n)⟩

theorem QuietSincePoll.succ (quiet : QuietSincePoll s0 m n) (run : State.run n s0 = .next s) (event : s.setev = false)
    (noReset : s.input.rst = false) (noPoll : s.acceptedWord ≠ some 0x20000000#32) : QuietSincePoll s0 m (n + 1) := by
  refine ⟨quiet.1, fun j v mj jn at_j => ?_⟩
  obtain earlier | rfl := Nat.lt_succ_iff_lt_or_eq.mp jn
  · exact quiet.2 j v mj earlier at_j
  · obtain rfl := State.run_inj run at_j
    exact ⟨event, noReset, fun _ => noPoll⟩

/-- A cycle leaves `SSP` clear only without reset and set event, by a POLL or because it was clear (R71). -/
theorem ssp_clear_of_step (h : step s = .next t) (clear : t.ssp = false) :
    s.setev = false ∧ s.input.rst = false ∧ (s.acceptedWord ≠ some 0x20000000#32 → s.ssp = false) := by
  cases reset : s.input.rst with
  | true => rw [eq_afterReset_of_step h reset] at clear; cases clear
  | false =>
    rw [setSincePollMerge s t h reset] at clear
    cases event : s.setev with
    | true => simp [event] at clear
    | false => exact ⟨rfl, rfl, fun noPoll => by simpa [event, noPoll] using clear⟩

/-- In a run from reset, `SSP` = 0 says that a POLL has been accepted and that all is quiet since (R22, R71). -/
theorem exists_quietSincePoll (run : State.run n s0.afterReset = .next s) (clear : s.ssp = false) :
    ∃ m < n, QuietSincePoll s0.afterReset m n := by
  refine State.run_keeps (P := fun n s => s.ssp = false → ∃ m < n, QuietSincePoll s0.afterReset m n) (Nat.zero_le n)
    (fun v start set => ?_) (fun j v w _ _ at_j h ih set => ?_) run clear
  · cases start; cases set
  · obtain ⟨event, noReset, before⟩ := ssp_clear_of_step h set
    by_cases poll : v.acceptedWord = some 0x20000000#32
    · exact ⟨j, Nat.lt_succ_self j, .start at_j event poll⟩
    · obtain ⟨m, earlier, quiet⟩ := ih (before poll)
      exact ⟨m, Nat.lt_succ_of_lt earlier, quiet.succ at_j event noReset poll⟩

/-- After the POLL's cycle the snapshot's digit and the ROM stay. -/
theorem QuietSincePoll.snapshot_kept (quiet : QuietSincePoll s0 m n) (mr : m < r) (rn : r ≤ n)
    (at_r : State.run r s0 = .next x) (run : State.run n s0 = .next s) :
    s.snapDigit = x.snapDigit ∧ s.rom = x.rom := by
  refine State.run_keeps (P := fun _ v => v.snapDigit = x.snapDigit ∧ v.rom = x.rom) rn (fun v start => ?_)
    (fun j v w rj jn at_j h ⟨digit, rom⟩ => ?_) run
  · rw [State.run_inj start at_r]; exact ⟨rfl, rfl⟩
  · obtain ⟨-, noReset, noPoll⟩ := quiet.2 j v (by omega) jn at_j
    exact ⟨(step_snapDigit h noReset (noPoll (by omega))).trans digit, (step_rom h).trans rom⟩

/-- With no command that writes it, the frame buffer of cycle `r + 1` stands up to cycle `c`. -/
theorem fb_kept {f : Vector Pixel 25} (rc : r < c) (start : ∀ v, State.run (r + 1) s0 = .next v → v.fb = f)
    (noReset : ∀ j v, r < j → j < c → State.run j s0 = .next v → v.input.rst = false)
    (noWrite : ∀ j v w i, r < j → j < c → State.run j s0 = .next v → v.acceptedWord = some w →
      decode w = .command i → writesFrame i = false)
    (at_c : State.run c s0 = .next y) : y.fb = f :=
  State.run_keeps (P := fun _ v => v.fb = f) (Nat.succ_le_of_lt rc) start
    (fun j v _ rj jc at_j h kept =>
      (step_fb h (noReset j v rj jc at_j) fun w i => noWrite j v w i rj jc at_j).trans kept) at_c

/-! ## From the COMMIT to the end of its stream -/

/-- Word `k` of the stream is taken in this cycle, or the stream goes on and has it still to come (R98). -/
theorem taken_or_waiting (h : step s = .next t) (noReset : s.input.rst = false) (busy : s.busy = true)
    {k : StreamIndex} (waiting : s.k ≤ k) :
    s.taken = some (txWord s.cfg.wordW s.fb k) ∨ (t.busy = true ∧ t.k ≤ k) := by
  obtain ⟨-, ⟨reset, -⟩ | ⟨-, -, u, path, rfl⟩⟩ := step_cases h
  · rw [noReset] at reset; cases reset
  · rw [commandPath_busy busy] at path
    cases path
    cases ready : s.input.txReady with
    | false => exact .inr ⟨busy, waiting⟩
    | true =>
      by_cases now : s.k = k
      · exact .inl (by simp [State.taken, busy, ready, noReset, now])
      · have more : s.k.val < k.val := Nat.lt_of_le_of_ne waiting fun e => now (Fin.ext e)
        rw [State.sequencer_more s (by omega)]
        exact .inr ⟨rfl, more⟩

/-- Between the cycle of a COMMIT and a later one in which the stream has ended, the transport takes every word of the
frame that the COMMIT found (R101). -/
theorem exists_taken_of_commit (cn : c < n) (at_c : State.run c s0 = .next y)
    (accepted : y.acceptedWord = some (encode .commit))
    (noReset : ∀ j v, c < j → j < n → State.run j s0 = .next v → v.input.rst = false)
    (run : State.run n s0 = .next s) (ended : s.busy = false) (k : StreamIndex) :
    ∃ j v, c < j ∧ j < n ∧ State.run j s0 = .next v ∧ v.taken = some (txWord v.cfg.wordW y.fb k) := by
  have split := State.run_keeps
    (P := fun n v => (v.busy = true ∧ v.fb = y.fb ∧ v.k ≤ k) ∨
      ∃ j v, c < j ∧ j < n ∧ State.run j s0 = .next v ∧ v.taken = some (txWord v.cfg.wordW y.fb k))
    (Nat.succ_le_of_lt cn) (fun v start => ?_) (fun j v w cj jn at_j h ih => ?_) run
  · obtain ⟨busy, -⟩ | taken := split
    · rw [ended] at busy; cases busy
    · exact taken
  · obtain ⟨busy, first, fb, -⟩ := step_commit (step_of_run_succ at_c start) accepted
    exact .inl ⟨busy, fb, first ▸ Fin.zero_le k⟩
  · obtain ⟨busy, fb, waiting⟩ | ⟨i, x, ci, ij, at_i, taken⟩ := ih
    · have free := noReset j v cj jn at_j
      obtain ⟨kept, -⟩ := step_busy_frame h free busy
      obtain now | ⟨stillBusy, still⟩ := taken_or_waiting h free busy waiting
      · exact .inr ⟨j, v, cj, Nat.lt_succ_self j, at_j, fb ▸ now⟩
      · exact .inl ⟨stillBusy, kept.trans fb, still⟩
    · exact .inr ⟨i, x, ci, Nat.lt_succ_of_lt ij, at_i, taken⟩

/-! ## No update is lost (R86) -/

/-- Settles O44: the POLL by `exists_quietSincePoll`; the snapshot stays from there to the ACK, a RENDER SNAP draws it,
and the ACK is accepted only once the stream of a COMMIT has ended. -/
theorem noUpdateIsLost : Obligations.NoUpdateIsLost := by
  intro n s0 s t v run h accepted dirty clean
  have noReset := State.noReset_of_accepted accepted
  have noPoll : s.acceptedWord ≠ some 0x20000000#32 := by rw [accepted]; decide
  obtain ⟨event, clear, clearAfter⟩ := ssp_clear_of_ack h accepted dirty clean
  have good : t.Good := step_good ((State.afterReset_good v).run run) h
  have fresh : t.snapDigit = t.cnt := (good.2 clearAfter).1
  obtain ⟨m, earlier, quiet⟩ := exists_quietSincePoll run clear
  obtain ⟨⟨u, at_m, poll⟩, quietToAck⟩ := quiet.succ run event noReset noPoll
  refine ⟨fresh, m, u, earlier, at_m, poll, fun j v mj jn => quietToAck j v mj (Nat.lt_succ_of_le jn),
    fun r x mr rn at_r render => ?_⟩
  obtain ⟨digit, rom⟩ := quiet.snapshot_kept mr rn.le at_r run
  have drawn : ∀ x', State.run (r + 1) s0.afterReset = .next x' → x'.fb = image t.rom t.cnt := by
    intro x' next
    obtain ⟨fb, -⟩ := step_renderSnap (step_of_run_succ at_r next) render
    rw [fb, ← fresh, step_rom h, step_snapDigit h noReset noPoll, digit, rom]
  refine ⟨drawn, fun c y rc cn at_c commit noWrite k => ?_⟩
  have resetFree : ∀ j v, r < j → j < n → State.run j s0.afterReset = .next v → v.input.rst = false := by
    intro j v rj jn at_j
    obtain ⟨-, noReset, -⟩ := quiet.2 j v (by omega) jn at_j
    exact noReset
  have frame : y.fb = image t.rom t.cnt :=
    fb_kept rc drawn (fun j v rj jc => resetFree j v rj (by omega)) noWrite at_c
  rw [← frame]
  exact exists_taken_of_commit cn at_c commit (fun j v cj jn => resetFree j v (by omega) jn) run
    (State.free_of_accepted accepted) k

end Sys2Proof.Machine
end

