-- ==== Sys2Proof/Proofs/Framebuffer.lean ====
section
/-! PROOF. The frame buffer of 43_framebuffer.md: the address map and the image of a digit (R89 to R93), the commands that
write the frame on their own (R94 to R96, R100, R102), and the commit stream, its words (R99), its cycle (R97, R98) and
the frame as it stood at the COMMIT (R101). -/

namespace Sys2Proof.Machine

open Sys2Proof

variable {s t : State}

/-! ## The address map and the image (R89 to R93) -/

theorem phys_eq (r c : Fin 5) :
    phys r.val c.val = (4 - r.val) * 5 + (if r.val % 2 = 0 then 4 - c.val else c.val) := by
  have parity : (4 - r.val) % 2 = 0 ↔ r.val % 2 = 0 := by omega
  have reflected : 4 - (4 - c.val) = c.val := by omega
  simp only [phys, zigzag, parity, reflected]
  split <;> rfl

/-- Row `r` covers the block of five from `(4-r)*5` (R91). -/
theorem phys_lt (r c : Fin 5) : phys r.val c.val < 25 := by
  rw [phys_eq]; split <;> omega

/-- `Log` finds back the cell (R92). -/
theorem log_phys (r c : Fin 5) :
    logRow ⟨phys r.val c.val, phys_lt r c⟩ = r ∧ logCol ⟨phys r.val c.val, phys_lt r c⟩ = c := by
  revert r c; decide

theorem phys_log (i : PixIndex) : phys (logRow i).val (logCol i).val = i.val := by
  revert i; decide

theorem phys_injective {r c r' c' : Fin 5} (same : phys r.val c.val = phys r'.val c'.val) : r = r' ∧ c = c' := by
  obtain ⟨row, col⟩ := log_phys r c
  obtain ⟨row', col'⟩ := log_phys r' c'
  simp only [same] at row col
  exact ⟨row.symm.trans row', col.symm.trans col'⟩

/-- A pixel is the glyph's colour or off (R93). -/
theorem imagePixel_eq (rom : Vector GlyphWord 10) (d : Digit) (i : PixIndex) :
    imagePixel rom d i = if lit rom d i then 0x0000FF#24 else 0 := rfl

/-- At a cell's physical index the image shows the cell's own ROM bit. -/
theorem image_phys (rom : Vector GlyphWord 10) (d : Digit) (r c : Fin 5) :
    (image rom d)[phys r.val c.val]'(phys_lt r c) =
      if (romRead rom d).getLsbD (r.val * 5 + c.val) then 0x0000FF#24 else 0 := by
  obtain ⟨row, col⟩ := log_phys r c
  have pixel := image_get rom d ⟨phys r.val c.val, phys_lt r c⟩
  rwa [imagePixel_eq, lit, romBit, row, col] at pixel

/-- Settles O42: `Log` inverts `Phys` on both sides, and the image is drawn per index by the ROM bit of its cell. -/
theorem imageDrawsEachCellAtItsPhysicalIndex : Obligations.ImageDrawsEachCellAtItsPhysicalIndex :=
  ⟨fun rom d r c => ⟨phys_lt r c, image_phys rom d r c⟩, phys_eq, fun _ _ _ _ => phys_injective, phys_log⟩

/-! ## The commands on their own (R94 to R97, R100) -/

theorem State.fbRead_image (s : State) (rom : Vector GlyphWord 10) (d : Digit) (i : PixIndex) :
    (s.setFb (image rom d)).fbRead i = if lit rom d i then 0x0000FF#24 else 0 := by
  rw [State.fbRead_setFb, image_get, imagePixel_eq]

theorem exec_renderSnap (s : State) : exec .renderSnap s = .next (s.setFb (image s.rom s.snapDigit)) := rfl

theorem exec_clear (s : State) : exec .clear s = .next (s.setFb blankFrame) := rfl

/-- Settles O24: two writes of the whole frame buffer, and one of the sequencer's registers. -/
theorem frameCommandsComplete : Obligations.FrameCommandsComplete := fun s =>
  ⟨⟨_, exec_renderSnap s, rfl, s.fbRead_image _ _⟩, ⟨_, exec_clear s, rfl, blankFrame_get⟩, rfl⟩

/-- What a fault leaves, by whether it is the first (R104). -/
theorem State.recordFault_spec (s : State) (f : CmdFault) (w : CmdWord) :
    s.recordFault f w =
        { s with err := true, errCode := (s.recordFault f w).errCode, errCmd := (s.recordFault f w).errCmd } ∧
      (s.err = false → (s.recordFault f w).errCode = f.code ∧ (s.recordFault f w).errCmd = w) ∧
      (s.err = true → (s.recordFault f w).errCode = s.errCode ∧ (s.recordFault f w).errCmd = s.errCmd) := by
  rw [State.recordFault_eq]
  exact ⟨rfl, fun first => by simp [first], fun later => by simp [later]⟩

/-- The record of a second fault is that of the first. -/
theorem State.recordFault_idem (s : State) (f : CmdFault) (w : CmdWord) :
    (s.recordFault f w).recordFault f w = s.recordFault f w :=
  State.recordFault_later _ f w (by rw [State.recordFault_eq]; rfl)

section
variable {dig : BitVec 4}

theorem exec_renderImm_digit (digit : dig.toNat < 10) (s : State) :
    exec (.renderImm dig) s = .next (s.setFb (image s.rom ⟨dig.toNat, digit⟩)) := dif_pos digit

theorem exec_renderImm_badDigit (bad : 10 ≤ dig.toNat) (s : State) :
    exec (.renderImm dig) s = .next (s.recordFault .badDigit (encode (.renderImm dig))) := dif_neg (Nat.not_lt.mpr bad)

end

/-- Settles O25: a digit's image is written, or BAD_DIGIT recorded. -/
theorem renderDigitCompletes : Obligations.RenderDigitCompletes := fun _ s =>
  ⟨fun digit => ⟨_, exec_renderImm_digit digit s, rfl, s.fbRead_image _ _⟩,
    fun bad => ⟨_, exec_renderImm_badDigit bad s, s.recordFault_spec _ _⟩⟩

section
variable {idx : BitVec 5} (red grn blu : Byte)

theorem exec_setpix_index (index : idx.toNat < 25) (s : State) :
    exec (.setpix idx red grn blu) s = .next (s.fbWrite ⟨idx.toNat, index⟩ (packPixel red grn blu)) := dif_pos index

theorem exec_setpix_badIndex (bad : 25 ≤ idx.toNat) (s : State) :
    exec (.setpix idx red grn blu) s = .next (s.recordFault .badIndex (encode (.setpix idx red grn blu))) :=
  dif_neg (Nat.not_lt.mpr bad)

/-- `{R, G, B}` as a number (R43). -/
theorem packPixel_toNat :
    (packPixel red grn blu).toNat = red.toNat * 2 ^ 16 + grn.toNat * 2 ^ 8 + blu.toNat := by
  change BitVec.toNat (w := 8 + 8 + 8) (red ++ grn ++ blu) = _
  simp only [toNat_append_add]
  omega

end

/-- Settles O26: the entry is written and the others kept, or BAD_INDEX recorded. -/
theorem setPixelCompletes : Obligations.SetPixelCompletes := by
  intro idx red grn blu s
  refine ⟨fun index => ?_, fun bad => ⟨_, exec_setpix_badIndex red grn blu bad s, s.recordFault_spec _ _⟩⟩
  have run := exec_setpix_index red grn blu index s
  refine ⟨_, run, rfl, ?_, fun _ other => exec_setpix_other run other⟩
  rw [State.fbRead_fbWrite_same, packPixel_toNat]

/-! ## Writing the frame twice (R102) -/

theorem State.setFb_setFb (s : State) (f g : Vector Pixel 25) : (s.setFb f).setFb g = s.setFb g := rfl

theorem State.fbWrite_idem (s : State) (i : PixIndex) (v : Pixel) : (s.fbWrite i v).fbWrite i v = s.fbWrite i v := by
  simp [State.fbWrite, State.setFb_setFb]

/-- A command that writes the frame does to its own result what it did. -/
theorem exec_frame_idem {i : Instr} (writes : writesFrame i = true) (h : exec i s = .next t) : exec i t = .next t := by
  cases i with
  | nop | poll | ack | commit => cases writes
  | renderSnap =>
    rw [exec_renderSnap] at h ⊢
    cases h; rw [State.setFb_setFb, State.setFb_rom, State.setFb_snapDigit]
  | clear =>
    rw [exec_clear] at h ⊢
    cases h; rw [State.setFb_setFb]
  | renderImm dig =>
    obtain digit | bad := Nat.lt_or_ge dig.toNat 10
    · rw [exec_renderImm_digit digit] at h ⊢
      cases h; rw [State.setFb_setFb, State.setFb_rom]
    · rw [exec_renderImm_badDigit bad] at h ⊢
      cases h; rw [State.recordFault_idem]
  | setpix idx red grn blu =>
    obtain index | bad := Nat.lt_or_ge idx.toNat 25
    · rw [exec_setpix_index red grn blu index] at h ⊢
      cases h; rw [State.fbWrite_idem]
    · rw [exec_setpix_badIndex red grn blu bad] at h ⊢
      cases h; rw [State.recordFault_idem]

/-- Settles O43: RENDER #d writes an image of the ROM and the digit alone, and every write of the frame is idempotent. -/
theorem frameWritesAreIdempotent : Obligations.FrameWritesAreIdempotent := by
  refine ⟨fun dig s s' t t' legal rom h h' => ?_, fun _ _ _ => exec_frame_idem⟩
  rw [exec_renderImm_digit (Nat.lt_succ_of_le legal)] at h h'
  cases h; cases h'
  rw [State.setFb_fb, State.setFb_fb, rom]

/-! ## The words of the stream (R44, R99) -/

/-- A byte fills the top of a word of at least 8 bits. -/
theorem wireWord_toNat {w : Nat} (wide : 8 ≤ w) (v : Byte) : (wireWord w v).toNat = v.toNat * 2 ^ (w - 8) := by
  have split : 2 ^ w = 2 ^ 8 * 2 ^ (w - 8) := by rw [← Nat.pow_add, Nat.add_sub_cancel' wide]
  have top : v.toNat * 2 ^ (w - 8) < 2 ^ w := by
    rw [split]; exact Nat.mul_lt_mul_of_pos_right v.isLt (Nat.two_pow_pos _)
  have fits : v.toNat < 2 ^ w := Nat.lt_of_lt_of_le v.isLt (Nat.pow_le_pow_right Nat.two_pos wide)
  rw [wireWord, BitVec.toNat_shiftLeft, BitVec.toNat_setWidth, Nat.mod_eq_of_lt fits, Nat.shiftLeft_eq,
    Nat.mod_eq_of_lt top]

/-- Green, red and blue of an entry as digits of its number (R43). -/
theorem channelOf_toNat (k : Nat) (p : Pixel) :
    (channelOf k p).toNat =
      if k % 3 = 0 then p.toNat / 2 ^ 8 % 2 ^ 8
      else if k % 3 = 1 then p.toNat / 2 ^ 16 % 2 ^ 8
      else p.toNat % 2 ^ 8 := by
  unfold channelOf
  split
  · exact toNat_field p 8 8
  · split
    · exact toNat_field p 16 8
    · rw [bluOf, toNat_field, Nat.pow_zero, Nat.div_one]

theorem State.outputs_txWord (busy : s.busy = true) : s.outputs.txWord = txWord s.cfg.wordW s.fb s.k := if_pos busy

/-- Settles O41: a channel by `channelOf_toNat`, in the top byte by `wireWord_toNat`. -/
theorem streamWordIsAChannelInTheTopByte : Obligations.StreamWordIsAChannelInTheTopByte := by
  intro s inside v busy
  obtain ⟨-, -, -, wide⟩ := v
  rw [State.outputs_txWord busy, txWord, wireWord_toNat wide, channelOf_toNat]
  rfl

/-! ## One cycle of a commit (R97, R98) -/

/-- Settles O30: COMMIT's effect with the button path, its encoding by the decoder's format Z. -/
theorem commitPresentsWordZero : Obligations.CommitPresentsWordZero := by
  refine ⟨decode_encode (i := .commit) rfl, fun w op other => decode_eq_reservedBits_of_ne (decode_op6 op) other,
    fun s => State.acceptedWord_busy, fun s v legal accepted => ?_⟩
  obtain ⟨t, h⟩ := step_total v (.inr legal)
  obtain ⟨busy, first, fb, digit, d⟩ := step_commit h accepted
  have word := State.outputs_txWord busy
  rw [first, fb] at word
  refine ⟨t, h, busy, first, busy, congrArg not busy, word, fb, d, ?_⟩
  obtain rfl := eq_of_step_accepted (i := .commit) h accepted rfl rfl
  simp [setOver_eq_or]

section
variable (h : step s = .next t) (noReset : s.input.rst = false) (busy : s.busy = true)
include h noReset busy

/-- With a commit in progress the sequencer acts, and the button path with it. -/
theorem eq_sequencer_of_step : t = ((s.sequencer s.input.txReady).buttonPath s.input).nextCycle := by
  obtain ⟨v, legal⟩ := valid_and_legal_of_step h noReset
  rw [step_run v noReset legal (commandPath_busy busy _)] at h
  cases h; rfl

theorem step_stalled (stalled : s.input.txReady = false) : t.busy = true ∧ t.k = s.k := by
  rw [eq_sequencer_of_step h noReset busy, stalled, State.sequencer_stalled]
  exact ⟨busy, rfl⟩

theorem step_lastWord (ready : s.input.txReady = true) (last : s.k.val = 74) : t.busy = false ∧ t.k = 0 := by
  rw [eq_sequencer_of_step h noReset busy, ready, State.sequencer_last s last]
  exact ⟨rfl, rfl⟩

theorem step_nextWord (ready : s.input.txReady = true) (more : s.k.val < 74) :
    t.busy = true ∧ t.k.val = s.k.val + 1 := by
  rw [eq_sequencer_of_step h noReset busy, ready, State.sequencer_more s more]
  exact ⟨rfl, rfl⟩

end

/-- Settles O39: the three ways of the sequencer, and `step_busy_frame` for the frame buffer. -/
theorem sequencerTakesOneWordPerReadyCycle : Obligations.SequencerTakesOneWordPerReadyCycle := by
  intro s v legal noReset busy
  obtain ⟨t, h⟩ := step_total v (.inr legal)
  obtain ⟨fb, -⟩ := step_busy_frame h noReset busy
  refine ⟨t, h, fb, fun stalled => ?_, fun ready => by simp [State.taken, busy, ready, noReset],
    step_lastWord h noReset busy, fun ready other => step_nextWord h noReset busy ready (by omega)⟩
  obtain ⟨stillBusy, kept⟩ := step_stalled h noReset busy stalled
  exact ⟨stillBusy, kept, by simp [State.taken, stalled]⟩

/-! ## The stream of a whole commit (R101) -/

/-- Every cycle uses up one listed input (R16). -/
theorem step_inputs (h : step s = .next t) : t.inputs = s.inputs.tail := by
  cases reset : s.input.rst with
  | true => rw [eq_afterReset_of_step h reset]; rfl
  | false => rw [eq_parallelStep_of_step h reset]; rfl

theorem readyCount_cons (i : Inputs) (l : List Inputs) :
    readyCount (i :: l) = readyCount l + if i.txReady = true then 1 else 0 := List.countP_cons

/-- Short of the stream's end, one cycle moves `K` by the words taken. -/
theorem step_stream (h : step s = .next t) (noReset : s.input.rst = false) (busy : s.busy = true)
    (short : s.k.val + (if s.input.txReady = true then 1 else 0) ≤ 74) :
    t.busy = true ∧ t.k.val = s.k.val + if s.input.txReady = true then 1 else 0 := by
  cases ready : s.input.txReady with
  | false =>
    obtain ⟨stillBusy, kept⟩ := step_stalled h noReset busy ready
    exact ⟨stillBusy, congrArg Fin.val kept⟩
  | true =>
    rw [ready, if_pos rfl] at short
    exact step_nextWord h noReset busy ready (by omega)

/-- A stream that does not end in the cycles `l` has gone on by the words taken in them, over an unchanged frame buffer. -/
theorem run_stream {l rest : List Inputs} (good : s.Good) (busy : s.busy = true) (listed : s.inputs = l ++ rest)
    (free : noReset l) (short : s.k.val + readyCount l ≤ 74) :
    ∃ t, State.run l.length s = .next t ∧ t.Good ∧ t.inputs = rest ∧ t.busy = true ∧
      t.k.val = s.k.val + readyCount l ∧ t.fb = s.fb := by
  induction l generalizing s with
  | nil => exact ⟨s, rfl, good, listed, busy, rfl, rfl⟩
  | cons i l ih =>
    obtain ⟨now, later⟩ := List.forall_mem_cons.mp free
    rw [readyCount_cons, ← State.input_listed s listed] at short ⊢
    rw [← State.input_listed s listed] at now
    obtain ⟨u, h⟩ := step_total good.1.1 (.inr good.legal)
    obtain ⟨fb, -⟩ := step_busy_frame h now busy
    obtain ⟨stillBusy, k⟩ := step_stream h now busy (by omega)
    have listed : u.inputs = l ++ rest := by rw [step_inputs h, listed]; rfl
    obtain ⟨t, run, goodT, left, busyT, kT, fbT⟩ := ih (step_good good h) stillBusy listed later (by omega)
    exact ⟨t, (State.run_next _ h).trans run, goodT, left, busyT, by omega, fbT.trans fb⟩

/-- The cycle after one in which the transport took word 74 finds the commit over. -/
theorem run_streamEnd {l : List Inputs} {j : Inputs} (good : s.Good) (busy : s.busy = true)
    (listed : s.inputs = l ++ [j]) (free : noReset (l ++ [j])) (words : s.k.val + readyCount l = 74)
    (ready : j.txReady = true) (run : State.run (l ++ [j]).length s = .next t) :
    t.busy = false ∧ t.k = 0 ∧ t.fb = s.fb := by
  obtain ⟨before, last⟩ := List.forall_mem_append.mp free
  obtain ⟨u, toLast, -, left, busyU, k, fb⟩ := run_stream good busy listed before words.le
  rw [List.length_append] at run
  have h : step u = .next t := step_of_run_succ toLast run
  have input : u.input = j := State.input_listed u left
  have noReset : u.input.rst = false := input ▸ last j (List.mem_singleton_self j)
  obtain ⟨ended, zero⟩ := step_lastWord h noReset busyU (input ▸ ready) (k.trans words)
  obtain ⟨kept, -⟩ := step_busy_frame h noReset busyU
  exact ⟨ended, zero, kept.trans fb⟩

/-- Settles O40: the cycle of the COMMIT, and from the next one `run_stream`, or `run_streamEnd`. -/
theorem commitStreamsTheFrameAsItStood : Obligations.CommitStreamsTheFrameAsItStood := by
  intro s i ins good free accepted
  have good : (s.setInputs (i :: ins)).Good := good
  obtain ⟨u, h⟩ := step_total good.1.1 (.inr good.legal)
  obtain ⟨busy, first, fb, -⟩ := step_commit h accepted
  have zero : u.k.val = 0 := congrArg Fin.val first
  have listed : u.inputs = ins := step_inputs h
  obtain ⟨t, run, -⟩ := State.run_good ins.length (step_good good h)
  refine ⟨t, (State.run_next _ h).trans run, fun short => ?_, fun l j split words ready => ?_⟩
  · obtain ⟨t', run', -, -, busyT, k, fbT⟩ := run_stream (rest := []) (step_good good h) busy
      (listed.trans (List.append_nil ins).symm) free (by omega)
    obtain rfl := State.run_inj run run'
    have frame : t.fb = s.fb := fbT.trans fb
    exact ⟨busyT, by omega, frame, frame ▸ State.outputs_txWord busyT⟩
  · subst split
    obtain ⟨ended, k, fbT⟩ := run_streamEnd (step_good good h) busy listed free (by omega) ready run
    exact ⟨ended, k, fbT.trans fb⟩

end Sys2Proof.Machine
end

