-- ==== Sys2Proof/Proofs/Exceptions.lean ====
section
/-! PROOF. The command faults of 60_exceptions.md: what the cycle of a faulting word does (R105), and that the record of the
first fault stays until a reset (R104). -/

namespace Sys2Proof.Machine

open Sys2Proof

variable {s t : State} {w : CmdWord} {f : CmdFault}

/-- An accepted word that faults has its record as the whole command path (R105). -/
theorem commandPath_faulting (accepted : s.acceptedWord = some w) (faulty : decode w = .fault f) :
    commandPath s.input s = .next (s.recordFault f w) := by
  obtain ⟨valid, free, -, rfl⟩ := State.acceptedWord_some.mp accepted
  simp only [commandPath, free, valid, acceptWord, faulty, Bool.false_eq_true, if_true, if_false]

/-- The cycle of a faulting word: the record, and the button path with it (R67, R105). -/
theorem step_faulting (v : s.cfg.Valid) (legal : s.Legal) (accepted : s.acceptedWord = some w)
    (faulty : decode w = .fault f) : step s = .next ((s.recordFault f w).buttonPath s.input).nextCycle :=
  step_run v (State.noReset_of_accepted accepted) legal (commandPath_faulting accepted faulty)

/-- The record of the first fault stays: it has no writer once `ERR` = 1 (R36, R104). -/
theorem step_keeps_record (h : step s = .next t) (noReset : s.input.rst = false) (faulted : s.err = true) :
    t.err = s.err ∧ t.errCode = s.errCode ∧ t.errCmd = s.errCmd := by
  obtain ⟨-, -, -, -, -, -, -, -, record, -⟩ := onlyTheListedWritersWrite s t h noReset
  by_contra changed
  have first : s.err = false := (record (by tauto)).1
  rw [faulted] at first
  cases first

/-- Settles O19: the record stays by `step_keeps_record`; a faulting word's cycle is `step_faulting`, whose record writes
`ERR`, `ERR_CODE` and `ERR_CMD` alone. -/
theorem faultingWordOnlyRecords : Obligations.FaultingWordOnlyRecords := by
  refine ⟨fun s t h noReset faulted => ?_, fun s w f v legal accepted faulty =>
    ⟨_, step_faulting v legal accepted faulty, ?_⟩⟩
  · simpa only [faulted] using step_keeps_record h noReset faulted
  · rw [State.recordFault_eq]
    simp [setOver_eq_or, State.free_of_accepted accepted]

end Sys2Proof.Machine
end

