-- ==== Sys2Proof/Proofs/ResetAndHazards.lean ====
section
/-! PROOF. Reset and hazards of 70_reset_and_hazards.md: the outputs around a reset (R120), what a button's line and the
ticks do to it along a run (R127, R129), and the reference host's redraw, from its start (R123) to its end (R132). -/

namespace Sys2Proof.Machine

open Sys2Proof

variable {s t : State}

/-! ## Around a reset (R120) -/

/-- Settles O8: no output port reads an input, and a cycle with `rst` = 1 answers the reset state. -/
theorem outputsAroundReset : Obligations.OutputsAroundReset := by
  refine ⟨fun _ _ => rfl, fun s t reset h => ?_⟩
  obtain rfl := eq_afterReset_of_step h reset
  exact ⟨rfl, rfl, rfl, statusWord_afterReset s, rfl⟩

/-! ## A button along a run -/

/-- The registers of button `n` after a run over the listed inputs, by R73, R74 and R76 alone. -/
def Button.over (b : Button) (c : Config) (n : Nat) : List Inputs → Button
  | [] => b
  | i :: l => (b.next c (i.btnN.getLsbD n) i.msTick).over c n l

theorem Button.over_cons (b : Button) (c : Config) (n : Nat) (i : Inputs) (l : List Inputs) :
    b.over c n (i :: l) = (b.next c (i.btnN.getLsbD n) i.msTick).over c n l := rfl

/-- A run without reset leaves a button where its own line and the ticks take it, whatever the other paths do (R68). -/
theorem run_button {reg : State → Button} {n : Nat} (which : IsButton reg n) {l : List Inputs} (listed : s.inputs = l)
    (free : noReset l) (run : State.run l.length s = .next t) : reg t = (reg s).over s.cfg n l ∧ t.cfg = s.cfg := by
  induction l generalizing s with
  | nil => cases run; exact ⟨rfl, rfl⟩
  | cons i l ih =>
    obtain ⟨now, later⟩ := List.forall_mem_cons.mp free
    obtain ⟨u, h, run⟩ := State.run_succ_cases run
    have input : s.input = i := State.input_listed s listed
    obtain ⟨button, cfg⟩ := ih (by rw [step_inputs h, listed]; rfl) later run
    rw [button, step_button which h (input ▸ now), step_cfg h, input, Button.over_cons]
    exact ⟨rfl, cfg.trans (step_cfg h)⟩

theorem IsButton.setInputs {reg : State → Button} {n : Nat} (which : IsButton reg n) (s : State) (l : List Inputs) :
    reg (s.setInputs l) = reg s := by
  obtain ⟨rfl, -⟩ | ⟨rfl, -⟩ := which <;> rfl

theorem runOn_button {reg : State → Button} {n : Nat} (which : IsButton reg n) {l : List Inputs} (free : noReset l)
    (run : s.runOn l = .next t) : reg t = (reg s).over s.cfg n l ∧ t.cfg = s.cfg := by
  have along := run_button which (show (s.setInputs l).inputs = l from rfl) free run
  rwa [which.setInputs, State.setInputs_cfg] at along

section
variable {b : Button} {c : Config}

/-! The way of a sample (R127). -/

/-- The stages of the synchroniser with `PREV` behind them: one shift register of `SYNC_STAGES` + 1 levels (R73, R74). -/
def Button.chain (b : Button) : List Bool := b.sync ++ [b.prev]

/-- `PREV` takes the last stage, so the whole register shifts. -/
theorem Button.chain_next (legal : b.Legal c) (v : c.Valid) (sample tick : Bool) :
    (b.next c sample tick).chain = sample :: b.sync := by
  have last : b.sync.getLast? = some (b.lvl c) := by
    rw [List.getLast?_eq_getElem?, legal.1]
    exact Button.getElem?_sync_last legal v
  rw [Button.chain, Button.next_sync, Button.next_prev, List.cons_append, List.dropLast_append_getLast? _ last]

theorem Button.chain_next_succ (legal : b.Legal c) (v : c.Valid) (sample tick : Bool) {j : Nat}
    (inside : j < c.syncStages) : (b.next c sample tick).chain[j + 1]? = b.chain[j]? := by
  rw [Button.chain_next legal v, List.getElem?_cons_succ, Button.chain, List.getElem?_append_left (legal.1 ▸ inside)]

/-- A level moves on by one place in every cycle. -/
theorem Button.chain_over (legal : b.Legal c) (v : c.Valid) (n : Nat) (l : List Inputs) {j : Nat}
    (inside : j + l.length ≤ c.syncStages) : (b.over c n l).chain[j + l.length]? = b.chain[j]? := by
  induction l generalizing b j with
  | nil => rfl
  | cons i l ih =>
    rw [List.length_cons] at inside
    rw [Button.over_cons, List.length_cons, show j + (l.length + 1) = j + 1 + l.length by omega,
      ih (Button.next_legal legal v _ _) (by omega), Button.chain_next_succ legal v _ _ (by omega)]

theorem Button.over_legal (legal : b.Legal c) (v : c.Valid) (n : Nat) (l : List Inputs) : (b.over c n l).Legal c := by
  induction l generalizing b with
  | nil => exact legal
  | cons i l ih => exact ih (Button.next_legal legal v _ _)

/-- A falling edge is a low level in the last stage with a high one behind it. -/
theorem Button.fall_of_chain (legal : b.Legal c) {j : Nat} (last : j + 1 = c.syncStages)
    (low : b.chain[j]? = some false) (high : b.chain[j + 1]? = some true) : b.fall c = true := by
  obtain ⟨stages, -⟩ := legal
  rw [Button.chain, List.getElem?_append_left (by omega)] at low
  rw [Button.chain, List.getElem?_append_right (by omega)] at high
  have prev : b.prev = true := by simpa [show j + 1 - b.sync.length = 0 by omega] using high
  exact (Button.fall_iff b c).mpr ⟨prev, by simp [Button.lvl, ← last, low]⟩

/-! The lockout timer (R129). -/

theorem tickCount_cons (i : Inputs) (l : List Inputs) :
    tickCount (i :: l) = tickCount l + if i.msTick = true then 1 else 0 := List.countP_cons

/-- The timer gains no more than the ticks. -/
theorem Button.age_over_le (v : c.Valid) (n : Nat) (l : List Inputs) :
    (b.over c n l).age.toNat ≤ b.age.toNat + tickCount l := by
  induction l generalizing b with
  | nil => exact Nat.le_add_right _ _
  | cons i l ih =>
    have later := ih (b := b.next c (i.btnN.getLsbD n) i.msTick)
    rw [Button.next_age, nextAge_toNat _ _ _ _ v] at later
    rw [Button.over_cons, tickCount_cons]
    have now : (if b.acc c then 0 else b.age.toNat) ≤ b.age.toNat := by split <;> omega
    omega

/-- From the cycle of an accepted edge on, the timer is at most the ticks (R76). -/
theorem Button.age_over_le_of_acc (v : c.Valid) (accepted : b.acc c = true) (n : Nat) (i : Inputs) (l : List Inputs) :
    (b.over c n (i :: l)).age.toNat ≤ tickCount (i :: l) := by
  have later := Button.age_over_le (b := b.next c (i.btnN.getLsbD n) i.msTick) v n l
  rw [Button.next_age, nextAge_toNat _ _ _ _ v, accepted, if_pos rfl] at later
  rw [Button.over_cons, tickCount_cons]
  omega

end

/-- Settles O37: after the first cycle the new low level stands before the old high one, and `SYNC_STAGES` - 1 cycles later
the two have come to the last stage and to `PREV`. -/
theorem buttonLatency : Obligations.ButtonLatency := by
  intro reg n s i rest which good free depth high low
  have v : s.cfg.Valid := good.1.1
  have legal := good.legal.button which
  obtain ⟨t, run, -⟩ := State.run_good (i :: rest).length (s := s.setInputs (i :: rest)) good
  obtain ⟨button, -⟩ := runOn_button which free run
  have first := Button.chain_next legal v (i.btnN.getLsbD n) i.msTick
  have legalNext := Button.next_legal legal v (i.btnN.getLsbD n) i.msTick
  rw [List.length_cons] at depth
  refine ⟨t, run, ?_⟩
  rw [button, Button.over_cons]
  refine Button.fall_of_chain (Button.over_legal legalNext v n rest) depth ?_ ?_
  · rw [← Nat.zero_add rest.length, Button.chain_over legalNext v n rest (by omega), first, low]
    rfl
  · rw [Nat.add_comm, Button.chain_over legalNext v n rest (by omega), first]
    exact high

/-- Settles O38: an accepted edge finds `AGE` = `DEBOUNCE_MS` + 1, which since the last one is at most the ticks. -/
theorem lockoutSpacing : Obligations.LockoutSpacing := by
  intro reg n s t i rest which good free first run second
  obtain ⟨button, cfg⟩ := runOn_button which free run
  obtain ⟨-, age⟩ := (Button.acc_iff_fall _ _).mp second
  have ticks := Button.age_over_le_of_acc good.1.1 first n i rest
  rwa [← button, age, cfg] at ticks

/-! ## The reference host's redraw (R123, R132) -/

namespace Closed

variable {c c' x : Closed} {digit : Digit} {m : Nat} {l rest : List Inputs}

theorem step_eq (h : Machine.step c.driven = .next t) : c.step = some { host := c.hostNext, dmc := t } := by
  rw [Closed.step, h]

theorem run_next (n : Nat) (h : c.step = some c') : Closed.run (n + 1) c = Closed.run n c' := by
  simp only [Closed.run, h]

/-- One cycle after a run. -/
theorem run_succ {n : Nat} (run : Closed.run n c = some x) (h : x.step = some c') : Closed.run (n + 1) c = some c' := by
  induction n generalizing c with
  | zero => cases run; exact run_next 0 h
  | succ n ih =>
    cases first : c.step with
    | some d =>
      rw [run_next n first] at run
      rw [run_next _ first, ih run]
    | none => simp [Closed.run, first] at run

/-- DMC does not refuse a cycle under the reference host. -/
theorem Sound.exists_next (sound : c.Sound) : ∃ t, Machine.step c.driven = .next t := by
  obtain ⟨good, -⟩ := sound.driven
  exact step_total good.1.1 (.inr good.legal)

theorem Sound.step_total (sound : c.Sound) : ∃ c', c.step = some c' := by
  obtain ⟨t, h⟩ := sound.exists_next
  exact ⟨_, step_eq h⟩

theorem hostNext_busy (noReset : c.dmc.input.rst = false) (busy : c.dmc.busy = true) : c.hostNext = c.host := by
  simp [Closed.hostNext, noReset, busy]

/-- Where the host and the stream stand `m` cycles after the host began a redraw of the digit with `D` = 1: POLL, RENDER
SNAP, COMMIT, 75 cycles of the stream, ACK. -/
def Stage (digit : Digit) (x : Closed) : Nat → Prop
  | 0 => x.host = .poll ∧ x.dmc.d = true ∧ x.dmc.cnt = digit
  | 1 => x.host = .look ∧ x.dmc.snapDirty = true ∧ x.dmc.snapDigit = digit
  | 2 => x.host = .commit ∧ x.dmc.snapDigit = digit
  | k + 3 => x.host = .ack ∧ x.dmc.snapDigit = digit ∧
      (k < 75 → x.dmc.busy = true ∧ x.dmc.k.val = k) ∧ (75 ≤ k → x.dmc.busy = false)

theorem Stage.host_ne_poll (stage : Stage digit x m) (begun : 0 < m) : x.host ≠ .poll := by
  match m, stage with
  | 1, ⟨host, _⟩ => simp [host]
  | 2, ⟨host, _⟩ => simp [host]
  | k + 3, ⟨host, _⟩ => simp [host]

/-- A cycle that finds DMC free accepts the host's word and takes the host one step on. -/
theorem accepts_of_free (free : c.dmc.busy = false) (noReset : c.dmc.input.rst = false) :
    c.driven.acceptedWord = some (encode (c.host.offers (statusWord c.driven))) ∧
      c.hostNext = c.host.after (statusWord c.dmc) :=
  ⟨acceptedWord_driven free noReset, by simp [Closed.hostNext, noReset, free]⟩

section
variable (h : Machine.step x.driven = .next t) (noReset : x.dmc.input.rst = false)
  (ready : x.dmc.input.txReady = true)
include h noReset ready

/-- In the stream, a word is taken in every cycle that finds the transport ready (R98). -/
theorem Stage.stream {k : Nat} (stage : Stage digit x (k + 3)) (more : k < 75) :
    Stage digit { host := x.hostNext, dmc := t } (k + 4) := by
  obtain ⟨host, snap, streaming, -⟩ := stage
  obtain ⟨busy, word⟩ := streaming more
  have word : x.driven.k.val = k := word
  obtain ⟨-, kept, -⟩ := step_busy_frame h noReset busy
  refine ⟨(hostNext_busy noReset busy).trans host, kept.trans snap, fun more => ?_, fun ended => ?_⟩
  · obtain ⟨busy, next⟩ := step_nextWord h noReset busy ready (by omega)
    exact ⟨busy, next.trans (congrArg (· + 1) word)⟩
  · exact (step_lastWord h noReset busy ready (by omega)).1

/-- Each cycle of the redraw takes it one stage on. -/
theorem Stage.next (stage : Stage digit x m) (sound : x.Sound) (short : m < 78) :
    Stage digit { host := x.hostNext, dmc := t } (m + 1) := by
  obtain ⟨-, free, -⟩ := sound
  match m, stage with
  | 0, ⟨host, dirty, cnt⟩ =>
    obtain ⟨accepted, next⟩ := accepts_of_free (free (by simp [host])) noReset
    rw [host] at accepted next
    obtain ⟨snap, captured, -⟩ := step_poll h accepted
    exact ⟨next, captured.trans dirty, snap.trans cnt⟩
  | 1, ⟨host, dirty, snap⟩ =>
    obtain ⟨accepted, next⟩ := accepts_of_free (free (by simp [host])) noReset
    have captured : x.driven.snapDirty = true := dirty
    rw [host, HostPhase.offers, statusWord_snapDirty, captured, if_pos rfl] at accepted
    rw [host, HostPhase.after, statusWord_snapDirty, dirty, if_pos rfl] at next
    obtain ⟨-, kept, -⟩ := step_renderSnap h accepted
    exact ⟨next, kept.trans snap⟩
  | 2, ⟨host, snap⟩ =>
    obtain ⟨accepted, next⟩ := accepts_of_free (free (by simp [host])) noReset
    rw [host] at accepted next
    obtain ⟨busy, first, -, kept, -⟩ := step_commit h accepted
    exact ⟨next, kept.trans snap, fun _ => ⟨busy, congrArg Fin.val first⟩, fun ended => absurd ended (by decide)⟩
  | k + 3, stage => exact stage.stream h noReset ready (by omega)

end

/-- The redraw over the ready, reset-free cycles `l`, up to the cycle of its ACK. -/
theorem Stage.run (stage : Stage digit x m) (sound : x.Sound) (listed : x.dmc.inputs = l ++ rest) (free : noReset l)
    (ready : alwaysReady l) (short : m + l.length ≤ 78) :
    ∃ y, Closed.run l.length x = some y ∧ Stage digit y (m + l.length) ∧ y.Sound ∧ y.dmc.inputs = rest ∧
      y.dmc.rom = x.dmc.rom := by
  induction l generalizing x m with
  | nil => exact ⟨x, rfl, stage, sound, listed, rfl⟩
  | cons i l ih =>
    obtain ⟨now, later⟩ := List.forall_mem_cons.mp free
    obtain ⟨readyNow, readyLater⟩ := List.forall_mem_cons.mp ready
    rw [← State.input_listed x.dmc listed] at now readyNow
    rw [List.length_cons] at short
    obtain ⟨t, h⟩ := sound.exists_next
    have hx := step_eq h
    have left : t.inputs = l ++ rest := by
      rw [step_inputs h]
      exact congrArg List.tail listed
    obtain ⟨y, run, stageY, soundY, restY, rom⟩ := ih (stage.next h now readyNow sound (by omega))
      (referenceHostKeepsTheFrameCurrent x _ sound hx) left later readyLater (by omega)
    refine ⟨y, ?_, ?_, soundY, restY, rom.trans (step_rom (s := x.driven) h)⟩
    · rw [List.length_cons, run_next _ hx, run]
    · rwa [List.length_cons, Nat.add_comm l.length, ← Nat.add_assoc]

/-- Up to the cycle of its ACK the redraw is at stage `m` after `m` cycles. -/
theorem Stage.reach (start : Stage digit c 0) (sound : c.Sound) (listed : c.dmc.inputs = l ++ rest) (free : noReset l)
    (ready : alwaysReady l) (enough : 78 ≤ l.length) (short : m ≤ 78) :
    ∃ y, Closed.run m c = some y ∧ Stage digit y m ∧ y.Sound ∧ y.dmc.inputs = l.drop m ++ rest ∧
      y.dmc.rom = c.dmc.rom := by
  have taken : (l.take m).length = m := by rw [List.length_take]; omega
  have along := start.run (l := l.take m) (rest := l.drop m ++ rest) sound
    (by rw [← List.append_assoc, List.take_append_drop, listed]) (fun i mem => free i (List.mem_of_mem_take mem))
    (fun i mem => ready i (List.mem_of_mem_take mem)) (by omega)
  rwa [taken, Nat.zero_add] at along

/-- The last cycle of the redraw accepts the ACK; the digit drawn is the counter's if the ACK clears `D` (R86). -/
theorem Stage.ack (stage : Stage digit x 78) (sound : x.Sound) (h : Machine.step x.driven = .next t)
    (noReset : x.dmc.input.rst = false) :
    x.hostNext = .poll ∧ t.busy = false ∧ t.snapDigit = digit ∧ t.fb = image x.dmc.rom digit ∧
      (t.d = false → t.cnt = digit) := by
  obtain ⟨host, snap, -, free⟩ := stage
  obtain ⟨good, -, drawn, -⟩ := sound
  obtain ⟨frame, dirty⟩ := drawn (.inr host)
  obtain ⟨accepted, next⟩ := accepts_of_free (free (by decide)) noReset
  rw [host] at accepted next
  obtain ⟨-, -, kept, -, fb, busy, -⟩ := step_ack h accepted
  have snap : t.snapDigit = digit := kept.trans snap
  refine ⟨next, busy, snap, by rw [← snap, kept]; exact fb.trans frame, fun clean => ?_⟩
  obtain ⟨-, -, clear⟩ := ssp_clear_of_ack h accepted dirty clean
  obtain ⟨fresh, -⟩ := (step_good (s := x.driven) good h).2 clear
  exact fresh.symm.trans snap

end Closed

/-- Settles O46: the reset state is as `Closed.Sound` says, and a good state is never refused. -/
theorem referenceHostStartsSound : Obligations.ReferenceHostStartsSound :=
  ⟨fun _ => Closed.sound_afterReset, fun _ => Closed.Sound.step_total⟩

/-- Settles O47: up to its ACK in cycle 78 the redraw goes through the stages, none of them the host's start but the first;
the ACK's cycle is the last. -/
theorem redrawTakes79Cycles : Obligations.RedrawTakes79Cycles := by
  intro c ins rest sound host dirty listed length free ready
  have start : Closed.Stage c.dmc.cnt c 0 := ⟨host, dirty, rfl⟩
  have reach (m : Nat) (short : m ≤ 78) := start.reach sound listed free ready (by omega) short
  refine ⟨fun m x begun short run => ?_, ?_⟩
  · obtain ⟨y, run', stage, -⟩ := reach m (by omega)
    obtain rfl : y = x := Option.some.inj (run'.symm.trans run)
    exact stage.host_ne_poll begun
  · obtain ⟨y, run, stage, soundY, listedY, rom⟩ := reach 78 (by omega)
    obtain ⟨j, last⟩ : ∃ j, ins.drop 78 = [j] := List.length_eq_one_iff.mp (by rw [List.length_drop]; omega)
    rw [last] at listedY
    have noReset : y.dmc.input.rst = false := by
      rw [State.input_listed y.dmc listedY]
      exact free j (List.mem_of_mem_drop (last ▸ List.mem_singleton_self j))
    obtain ⟨t, h⟩ := soundY.exists_next
    obtain ⟨next, busy, snap, fb, cnt⟩ := stage.ack soundY h noReset
    rw [rom] at fb
    have left : t.inputs = rest := by
      rw [step_inputs h]
      exact congrArg List.tail listedY
    exact ⟨_, Closed.run_succ run (Closed.step_eq h), next, busy, snap, fb, left, cnt⟩

end Sys2Proof.Machine
end
